-- ==== Sys2Proof/Word.lean ====
section
/-! DEFINITION. The number types of the machine (spec/00_scope.md section 5). -/

namespace Sys2Proof

/-- A byte: a memory cell, an opcode byte, an operand byte (00_scope.md section 5; 20_memory.md R30). -/
abbrev Byte := BitVec 8

end Sys2Proof
end

