-- ==== Sys2Proof/Config.lean ====
section
/-! DEFINITION. The parameters the spec leaves selectable (spec/00_scope.md R5). A `Config` is fixed for one machine and is
no state (10_state.md R10). The values of THIS hardware are `hardware`, in Sys2Proof/Machine/Hardware.lean. -/

namespace Sys2Proof

/-- `REG_MODE` (R5, R12): 8-bit registers with reduced ALU results, or unbounded registers. -/
inductive RegMode where
  | wrap8
  | wide
  deriving DecidableEq, Repr

/-- `OVERFETCH` (R5, R62): read only the bytes an instruction consumes, or always three bytes. -/
inductive Overfetch where
  | suppress
  | strict3
  deriving DecidableEq, Repr

/-- `STACK_POLICY` (R5, R90, R91, R95): fault at the ends of the SP range, or SP arithmetic modulo 256. -/
inductive StackPolicy where
  | fault
  | wrap
  deriving DecidableEq, Repr

/-- The parameters of 00_scope.md R5: five choices, of which the opcode bytes are nine fields. -/
structure Config where
  regMode     : RegMode
  flReset     : BitVec 3
  opcMul      : Byte
  opcCmp      : Byte
  opcPush     : Byte
  opcPop      : Byte
  opcCall     : Byte
  opcRet      : Byte
  opcJmp      : Byte
  opcJeq      : Byte
  opcJne      : Byte
  overfetch   : Overfetch
  stackPolicy : StackPolicy
  deriving DecidableEq, Repr

end Sys2Proof
end

