-- ==== Sys2Proof/Syntax.lean ====
section
/-! DEFINITION. The thirteen instructions and the four formats (spec/30_encoding.md R46, R53). -/

namespace Sys2Proof

/-- One constructor per row of spec/opcode_table.json. A register operand is the WHOLE operand byte, since a byte above 7
is reported by its value when the instruction raises `OutOfBounds(REG, byte)` (R49). -/
inductive Instr where
  | hlt
  | ldi (r imm : Byte)
  | prn (r : Byte)
  | add (a b : Byte)
  | mul (a b : Byte)
  | cmp (a b : Byte)
  | push (r : Byte)
  | pop (r : Byte)
  | call (r : Byte)
  | ret
  | jmp (r : Byte)
  | jeq (r : Byte)
  | jne (r : Byte)
  deriving DecidableEq, Repr

/-- An entry of the dispatch table (R53, R63): what an opcode byte selects. -/
inductive Opcode where
  | hlt | ldi | prn | add | mul | cmp | push | pop | call | ret | jmp | jeq | jne
  deriving DecidableEq, Repr

/-- The four instruction formats of R46. -/
inductive Format where
  | f0
  | f1
  | f2r
  | f2i
  deriving DecidableEq, Repr

end Sys2Proof
end

