-- ==== Sys2Proof/Machine/Hardware.lean ====
section
/-! DEFINITION. The opcode byte of each instruction under a configuration, which configurations the spec defines, and the
configuration of THIS hardware (spec/30_encoding.md R51 to R53; spec/92_eei_decisions.md D1, D2, D3, D6, D8). -/

namespace Sys2Proof

/-- The opcode byte of each instruction: four bytes fixed by R51, nine taken from the configuration (R52). -/
def opcodeByte (c : Config) : Opcode → Byte
  | .hlt  => 0x01
  | .ldi  => 0x82
  | .prn  => 0x47
  | .add  => 0xA0
  | .mul  => c.opcMul
  | .cmp  => c.opcCmp
  | .push => c.opcPush
  | .pop  => c.opcPop
  | .call => c.opcCall
  | .ret  => c.opcRet
  | .jmp  => c.opcJmp
  | .jeq  => c.opcJeq
  | .jne  => c.opcJne

/-- The thirteen entries of the dispatch table, in the source's order (R53). -/
def allOpcodes : List Opcode :=
  [.hlt, .ldi, .prn, .add, .mul, .cmp, .push, .pop, .call, .ret, .jmp, .jeq, .jne]

/-- The configurations the spec gives a meaning: thirteen pairwise distinct opcode bytes (R52), and `STACK_POLICY = WRAP`
only together with `REG_MODE = WRAP8` (43_stack.md R95). Log entry 4. -/
abbrev Config.Wf (c : Config) : Prop :=
  (allOpcodes.map (opcodeByte c)).Nodup ∧ (c.stackPolicy = .wrap → c.regMode = .wrap8)

/-- PRESUMED (the nine `OPC_*` bytes: the spec's defaults, which it takes from general knowledge, R52, D3) and the spec's
decisions D1 (`WRAP8`), D2 (`FL_RESET = 0b000`), D6 (`SUPPRESS`), D8 (`FAULT`). Unsafe: a realisation with another value is
another machine. Log entry 1. -/
def hardware : Config where
  regMode     := .wrap8
  flReset     := 0b000
  opcMul      := 0xA2
  opcCmp      := 0xA7
  opcPush     := 0x45
  opcPop      := 0x46
  opcCall     := 0x50
  opcRet      := 0x11
  opcJmp      := 0x54
  opcJeq      := 0x55
  opcJne      := 0x56
  overfetch   := .suppress
  stackPolicy := .fault

end Sys2Proof
end

