-- ==== Sys2Proof/Machine/State.lean ====
section
/-! DEFINITION. The machine's state, its fatal errors, and the reasons a step can stop (spec/10_state.md R10 to R29;
spec/60_exceptions.md R110). -/

namespace Sys2Proof.Machine

/-- What an `OutOfBounds` error is about (60_exceptions.md R110): an address, a register index, a value offered to a cell. -/
inductive Space where
  | mem
  | reg
  | val
  deriving DecidableEq, Repr

/-- The five fatal error kinds with their `info` (60_exceptions.md R110, D14, D19). Raising one is an effect the spec
describes (R111), so it is a NEXT state with `run = FAULTED(kind, info)`. Log entries 3 and 7. -/
inductive FatalError where
  | illegalOpcode (b : Byte)
  | unsupportedALUOperation (selector : Nat)
  | outOfBounds (space : Space) (value : Nat)
  | stackOverflow (sp : Nat)
  | stackUnderflow (sp : Nat)
  deriving DecidableEq, Repr

/-- The run state (10_state.md R22). -/
inductive RunState where
  | running
  | halted
  | faulted (e : FatalError)
  deriving DecidableEq, Repr

/-- Why a step gives no next state. -/
inductive Fault where
  /-- Raised by `step` alone, when `run` is not `RUNNING`: "no step exists" (40_loop_dispatch_hlt.md R60). Safe: the
  machine's state never changes again until a reset. Log entry 3. -/
  | stopped
  deriving DecidableEq, Repr

/-- Why the model gives an instruction no meaning. -/
inductive Refusal where
  /-- An instruction without a meaning, rejected by `exec`'s arm under its mnemonic. No arm of this model does. Safe. -/
  | notModelled (mnemonic : String)
  deriving DecidableEq, Repr

/-- The architectural state, exactly the six items of 10_state.md R10. -/
structure State where
  /-- `M`, the 256 cells (R30), in the canonical form `Memory.wf`; an unlisted cell holds 0. -/
  mem : List Host.Cell
  /-- `x[0]` to `x[7]`; `x[7]` is SP (R11, R13). A value is a non-negative number (R12): unbounded under `WIDE`, 0..255
  under `WRAP8`, which is the invariant `RegsFit`. Log entry 2. -/
  x : Vector Nat 8
  /-- The program counter, never reduced modulo 256 (R16, R18). -/
  pc : Nat
  /-- `FL`: bit 2 is L, bit 1 is G, bit 0 is E (R19). -/
  fl : BitVec 3
  /-- The run state (R22). -/
  run : RunState
  /-- The values PRN has emitted, oldest first (R24). -/
  out : List Nat
  deriving DecidableEq, Repr

/-- The state reset leaves under a configuration (10_state.md R29; 70_reset_and_hazards.md R130). -/
def resetIn (c : Config) : State where
  mem := []
  x   := #v[0, 0, 0, 0, 0, 0, 0, 0]
  pc  := 0
  fl  := c.flReset
  run := .running
  out := []

/-- The machine right after reset, before an image is loaded (R29, R130). Every value is the spec's. -/
def State.reset : State := resetIn hardware

end Sys2Proof.Machine
end

