-- ==== Sys2Proof/Machine/Flags.lean ====
section
/-! DEFINITION. The compare flags (spec/10_state.md R19, R20; spec/42_alu.md R83). -/

namespace Sys2Proof.Machine

/-- The pattern LESS, bit L. -/
def flLess : BitVec 3 := 0b100

/-- The pattern GREATER, bit G. -/
def flGreater : BitVec 3 := 0b010

/-- The pattern EQUAL, bit E. -/
def flEqual : BitVec 3 := 0b001

/-- What CMP writes to `FL`: an unsigned comparison, exactly one bit set (R19, R83). -/
def compareFlags (va vb : Nat) : BitVec 3 :=
  if va < vb then flLess else if va > vb then flGreater else flEqual

/-- `FL[0] = 1`, the only flag any instruction reads (R20). -/
def equalBit (fl : BitVec 3) : Bool := fl[0]

end Sys2Proof.Machine
end

