-- ==== Sys2Proof/Machine/Ops.lean ====
section
/-! DEFINITION. The named operations over memory, registers, pc, the run state and the stack (spec/00_scope.md section 6;
spec/20_memory.md R30 to R32; spec/43_stack.md R90, R91, R95; spec/60_exceptions.md R111). -/

namespace Sys2Proof.Machine

/-! ### Memory cells -/

/-- What a cell that no entry lists holds: memory is zero-filled at reset (10_state.md R29). -/
def unlistedCell : Byte := 0

/-- The canonical form of memory: addresses strictly rising, all below 256 (R30), no entry equal to what an unlisted cell
holds. -/
abbrev Memory.wf (m : List Host.Cell) : Prop :=
  m.Pairwise (fun p q => p.1 < q.1) ∧ ∀ p ∈ m, p.1 < 256 ∧ p.2 ≠ unlistedCell

/-- `M[a]`, with no check (R30). The list is in rising order, so the search ends at the first greater address. -/
def memGet : List Host.Cell → Nat → Byte
  | [], _ => unlistedCell
  | (b, v) :: rest, a => if a < b then unlistedCell else if a = b then v else memGet rest a

/-- `M[a] <- v`, with no check: the entries below `a`, the entry for `a` unless `v` is what an unlisted cell holds, the
entries above `a`. -/
def memSet (a : Nat) (v : Byte) (m : List Host.Cell) : List Host.Cell :=
  m.takeWhile (fun p => decide (p.1 < a)) ++
    ((if v = unlistedCell then [] else [(a, v)]) ++ m.dropWhile (fun p => decide (p.1 ≤ a)))

/-- Consecutive bytes written from address `a` upward (70_reset_and_hazards.md R131). -/
def memSetList : Nat → List Byte → List Host.Cell → List Host.Cell
  | _, [], m => m
  | a, b :: bs, m => memSetList (a + 1) bs (memSet a b m)

/-- `M[a]` of a state. -/
def cell (a : Nat) (s : State) : Byte := memGet s.mem a

/-! ### Fatal errors -/

/-- `raise K(info)` (60_exceptions.md R111): nothing of the state changes but `run`. The one operation by which every
fatal error is taken; there is no return from one (R119, R120). -/
def raise (e : FatalError) (s : State) : State := { s with run := .faulted e }

/-- A check of an instruction's check phase: go on, or raise `e` (00_scope.md section 6). -/
def require (p : Prop) [Decidable p] (e : FatalError) : Except FatalError Unit :=
  if p then .ok () else .error e

/-- The outcome of a step that began in `s`: its result, or the error raised in `s`, with no write of the abandoned
instruction (R111). -/
def settle (s : State) : Except FatalError State → Host.Outcome State Fault Refusal
  | .ok t => .next t
  | .error e => .next (raise e s)

/-! ### Checked memory access -/

/-- `MemRead(a, 1)` (20_memory.md R31). -/
def memRead (a : Nat) (s : State) : Except FatalError Byte :=
  if a > 255 then .error (.outOfBounds .mem a) else .ok (cell a s)

/-- `MemWrite(a, 1, v)` (20_memory.md R32). -/
def memWrite (a v : Nat) (s : State) : Except FatalError State :=
  if a > 255 then .error (.outOfBounds .mem a)
  else if v > 255 then .error (.outOfBounds .val v)
  else .ok { s with mem := memSet a (BitVec.ofNat 8 v) s.mem }

/-! ### Registers and pc -/

/-- `x[i]` (10_state.md R11). -/
def readReg (i : Fin 8) (s : State) : Nat := s.x[i]

/-- `x[i] <- v` (10_state.md R11): the whole value is replaced. -/
def writeReg (i : Fin 8) (v : Nat) (s : State) : State := { s with x := s.x.set i v }

/-- `SP` is `x[7]` itself (10_state.md R13). -/
def spIndex : Fin 8 := 7

/-- The value of SP. -/
def sp (s : State) : Nat := readReg spIndex s

/-- `SP <- v`. -/
def setSp (v : Nat) (s : State) : State := writeReg spIndex v s

/-- `pc <- pc + n`, exact, never reduced (10_state.md R18; 40_loop_dispatch_hlt.md R68). -/
def advance (n : Nat) (s : State) : State := { s with pc := s.pc + n }

/-- `pc <- t`, not validated (44_control_transfer.md R105). -/
def jump (t : Nat) (s : State) : State := { s with pc := t }

/-- `emit(v)` (10_state.md R24). -/
def emit (v : Nat) (s : State) : State := { s with out := s.out ++ [v] }

/-! ### Reduction of ALU results -/

/-- `trunc8` (00_scope.md section 5). -/
def trunc8 (v : Nat) : Nat := v % 256

/-- `norm` (00_scope.md section 5): reduction modulo 256 under `WRAP8`, nothing under `WIDE`. -/
def normResult (c : Config) (v : Nat) : Nat :=
  match c.regMode with
  | .wrap8 => trunc8 v
  | .wide => v

/-! ### The stack primitives -/

/-- The address a push writes: SP - 1, or `StackOverflow` at SP = 0 (43_stack.md R90); under `STACK_POLICY = WRAP`,
(SP - 1) mod 256 (R95). -/
def pushAddr (c : Config) (s : State) : Except FatalError Nat :=
  match c.stackPolicy with
  | .fault => if sp s = 0 then .error (.stackOverflow 0) else .ok (sp s - 1)
  | .wrap => .ok ((sp s + 255) % 256)

/-- `push(v)` (43_stack.md R90, R95): the value check, the stack check, the address check, then SP and the cell. -/
def push (c : Config) (v : Nat) (s : State) : Except FatalError State := do
  require (v ≤ 255) (.outOfBounds .val v)
  let a ← pushAddr c s
  require (a ≤ 255) (.outOfBounds .mem a)
  memWrite a v (setSp a s)

/-- `SP_MAX_POP` (43_stack.md R91). -/
def spMaxPop (c : Config) : Nat :=
  match c.regMode with
  | .wrap8 => 254
  | .wide => 255

/-- The value of SP after a pop, or `StackUnderflow` (43_stack.md R91); under `STACK_POLICY = WRAP`, (SP + 1) mod 256
(R95). -/
def popSp (c : Config) (s : State) : Except FatalError Nat :=
  match c.stackPolicy with
  | .fault => if sp s > spMaxPop c then .error (.stackUnderflow (sp s)) else .ok (sp s + 1)
  | .wrap => .ok ((sp s + 1) % 256)

/-- `pop()` (43_stack.md R91, R95): the byte at SP, and the state with SP moved. The cell keeps its content. -/
def pop (c : Config) (s : State) : Except FatalError (Byte × State) := do
  let sp' ← popSp c s
  let v ← memRead (sp s) s
  .ok (v, setSp sp' s)

end Sys2Proof.Machine
end

