-- ==== Sys2Proof/Machine/Operands.lean ====
section
/-! DEFINITION. The operand forms: a register operand byte and the immediate (spec/30_encoding.md R49, R50;
spec/10_state.md R15). -/

namespace Sys2Proof.Machine

/-- A register operand byte, used whole as the index: above 7 it raises `OutOfBounds(REG, byte)` (R15, R49). -/
def regOperand (b : Byte) : Except FatalError (Fin 8) :=
  if h : b.toNat < 8 then .ok ⟨b.toNat, h⟩ else .error (.outOfBounds .reg b.toNat)

/-- The operand byte that names register `i`. -/
def regByte (i : Fin 8) : Byte := BitVec.ofNat 8 i.val

/-- LDI's immediate, zero-extended (R50). -/
def immOperand (b : Byte) : Nat := b.toNat

end Sys2Proof.Machine
end

