-- ==== Sys2Proof/Machine/Alu.lean ====
section
/-! DEFINITION. The arithmetic/compare unit and ADD, MUL, CMP (spec/42_alu.md R80 to R86). The `...In` meanings take the
configuration; the `exec...` meanings are those of this hardware. -/

namespace Sys2Proof.Machine

/-- The operation selector of the unit (R84). The dispatch table drives it to `add`, `mul` and `cmp` only; `other` is the
"any other operation name" of R80, whose number is an uninterpreted name. Log entry 7. -/
inductive AluOp where
  | add
  | mul
  | cmp
  | other (selector : Nat)
  deriving DecidableEq, Repr

/-- `ALU(op, a, b)` (R80): both indices checked, A first; both registers read before anything is written. -/
def alu (c : Config) (op : AluOp) (opA opB : Byte) (s : State) : Except FatalError State := do
  let a ← regOperand opA
  let b ← regOperand opB
  let va := readReg a s
  let vb := readReg b s
  match op with
  | .add => .ok (writeReg a (normResult c (va + vb)) s)
  | .mul => .ok (writeReg a (normResult c (va * vb)) s)
  | .cmp => .ok { s with fl := compareFlags va vb }
  | .other selector => .error (.unsupportedALUOperation selector)

/-- ADD under a configuration (R81). -/
def addIn (c : Config) (opA opB : Byte) (s : State) : Host.Outcome State Fault Refusal :=
  settle s do
    let t ← alu c .add opA opB s
    .ok (advance 3 t)

/-- MUL under a configuration (R82). -/
def mulIn (c : Config) (opA opB : Byte) (s : State) : Host.Outcome State Fault Refusal :=
  settle s do
    let t ← alu c .mul opA opB s
    .ok (advance 3 t)

/-- CMP under a configuration (R83). -/
def cmpIn (c : Config) (opA opB : Byte) (s : State) : Host.Outcome State Fault Refusal :=
  settle s do
    let t ← alu c .cmp opA opB s
    .ok (advance 3 t)

/-- ADD (R81). -/
def execAdd (opA opB : Byte) (s : State) : Host.Outcome State Fault Refusal := addIn hardware opA opB s

/-- MUL (R82). -/
def execMul (opA opB : Byte) (s : State) : Host.Outcome State Fault Refusal := mulIn hardware opA opB s

/-- CMP (R83). -/
def execCmp (opA opB : Byte) (s : State) : Host.Outcome State Fault Refusal := cmpIn hardware opA opB s

end Sys2Proof.Machine
end

