-- ==== Sys2Proof/Machine/Control.lean ====
section
/-! DEFINITION. JMP, JEQ, JNE, CALL, RET (spec/44_control_transfer.md R100 to R106). Targets are not validated (R105). -/

namespace Sys2Proof.Machine

/-- JMP: `pc <- x[r]` (R100). -/
def execJmp (opA : Byte) (s : State) : Host.Outcome State Fault Refusal :=
  settle s do
    let r ← regOperand opA
    .ok (jump (readReg r s) s)

/-- JEQ: jump if `FL[0] = 1`; the register index is checked either way (R101). -/
def execJeq (opA : Byte) (s : State) : Host.Outcome State Fault Refusal :=
  settle s do
    let r ← regOperand opA
    .ok (if equalBit s.fl then jump (readReg r s) s else advance 2 s)

/-- JNE: jump if `FL[0] = 0`; the register index is checked either way (R102). -/
def execJne (opA : Byte) (s : State) : Host.Outcome State Fault Refusal :=
  settle s do
    let r ← regOperand opA
    .ok (if equalBit s.fl then advance 2 s else jump (readReg r s) s)

/-- CALL under a configuration: the return address `pc + 2` is checked, then pushed; the target is read after the push
(R103, D9, D10). -/
def callIn (c : Config) (opA : Byte) (s : State) : Host.Outcome State Fault Refusal :=
  settle s do
    let r ← regOperand opA
    let ra := s.pc + 2
    require (ra ≤ 255) (.outOfBounds .mem ra)
    let t ← push c ra s
    .ok (jump (readReg r t) t)

/-- RET under a configuration: the popped byte becomes `pc` (R104). -/
def retIn (c : Config) (s : State) : Host.Outcome State Fault Refusal :=
  settle s do
    let (v, t) ← pop c s
    .ok (jump v.toNat t)

/-- CALL (R103). -/
def execCall (opA : Byte) (s : State) : Host.Outcome State Fault Refusal := callIn hardware opA s

/-- RET (R104). -/
def execRet (s : State) : Host.Outcome State Fault Refusal := retIn hardware s

end Sys2Proof.Machine
end

