-- ==== Sys2Proof/Machine/Halt.lean ====
section
/-! DEFINITION. HLT (spec/40_loop_dispatch_hlt.md R67). -/

namespace Sys2Proof.Machine

/-- HLT: `run <- HALTED`; `pc` keeps the address of the HLT byte (R67). -/
def execHlt (s : State) : Host.Outcome State Fault Refusal :=
  settle s (.ok { s with run := .halted })

end Sys2Proof.Machine
end

