-- ==== Sys2Proof/Machine/LoadPrint.lean ====
section
/-! DEFINITION. LDI and PRN (spec/41_ldi_prn.md R75, R76). -/

namespace Sys2Proof.Machine

/-- LDI: `x[r] <- imm`, `pc + 3` (R75). -/
def execLdi (opA opB : Byte) (s : State) : Host.Outcome State Fault Refusal :=
  settle s do
    let r ← regOperand opA
    .ok (advance 3 (writeReg r (immOperand opB) s))

/-- PRN: `emit(x[r])`, `pc + 2` (R76). -/
def execPrn (opA : Byte) (s : State) : Host.Outcome State Fault Refusal :=
  settle s do
    let r ← regOperand opA
    .ok (advance 2 (emit (readReg r s) s))

end Sys2Proof.Machine
end

