-- ==== Sys2Proof/Machine/Stack.lean ====
section
/-! DEFINITION. PUSH and POP (spec/43_stack.md R92, R93). -/

namespace Sys2Proof.Machine

/-- PUSH under a configuration: the register is read before SP moves (R92, D10). -/
def pushIn (c : Config) (opA : Byte) (s : State) : Host.Outcome State Fault Refusal :=
  settle s do
    let r ← regOperand opA
    let t ← push c (readReg r s) s
    .ok (advance 2 t)

/-- POP under a configuration: the register is written after SP has moved (R93, D10). -/
def popIn (c : Config) (opA : Byte) (s : State) : Host.Outcome State Fault Refusal :=
  settle s do
    let r ← regOperand opA
    let (v, t) ← pop c s
    .ok (advance 2 (writeReg r v.toNat t))

/-- PUSH (R92). -/
def execPush (opA : Byte) (s : State) : Host.Outcome State Fault Refusal := pushIn hardware opA s

/-- POP (R93). -/
def execPop (opA : Byte) (s : State) : Host.Outcome State Fault Refusal := popIn hardware opA s

end Sys2Proof.Machine
end

