-- ==== Sys2Proof/Decode.lean ====
section
/-! DEFINITION. The dispatch table, the decoder and the encoder (spec/30_encoding.md R46 to R57; spec/40_loop_dispatch_hlt.md
R63). Decoding is by the whole opcode byte alone (R48); the length is that of the table entry (R47). -/

namespace Sys2Proof

/-- The format of each table entry (R53). -/
def Opcode.format : Opcode → Format
  | .hlt  => .f0
  | .ldi  => .f2i
  | .prn  => .f1
  | .add  => .f2r
  | .mul  => .f2r
  | .cmp  => .f2r
  | .push => .f1
  | .pop  => .f1
  | .call => .f1
  | .ret  => .f0
  | .jmp  => .f1
  | .jeq  => .f1
  | .jne  => .f1

/-- The number of operand bytes of a format (R46); the instruction is one byte longer. -/
def Format.ops : Format → Nat
  | .f0  => 0
  | .f1  => 1
  | .f2r => 2
  | .f2i => 2

/-- `DispatchTable` (R63): the entry whose opcode byte is `b`, or absent. Total on every byte. -/
def dispatchTable (c : Config) (b : Byte) : Option Opcode :=
  allOpcodes.find? fun op => opcodeByte c op == b

/-- The instruction of a table entry and its operand bytes; bytes beyond the entry's operand count are not looked at
(R56, R61). -/
def assemble (op : Opcode) (opA opB : Byte) : Instr :=
  match op with
  | .hlt  => .hlt
  | .ldi  => .ldi opA opB
  | .prn  => .prn opA
  | .add  => .add opA opB
  | .mul  => .mul opA opB
  | .cmp  => .cmp opA opB
  | .push => .push opA
  | .pop  => .pop opA
  | .call => .call opA
  | .ret  => .ret
  | .jmp  => .jmp opA
  | .jeq  => .jeq opA
  | .jne  => .jne opA

/-- Why a list of bytes is no instruction: it is empty, its first byte has no table entry (R54), or it ends before the
operands the entry consumes (R46). -/
inductive DecodeError where
  | noBytes
  | illegalOpcode (b : Byte)
  | missingOperand (op : Opcode)
  deriving DecidableEq, Repr

/-- The operand bytes a format takes from the bytes after the opcode (a byte it does not take is given as 0 and never
looked at), and the rest. -/
def takeOperands : Format → List Byte → Option (Byte × Byte × List Byte)
  | .f0,  rest           => some (0, 0, rest)
  | .f1,  a :: rest      => some (a, 0, rest)
  | .f2r, a :: b :: rest => some (a, b, rest)
  | .f2i, a :: b :: rest => some (a, b, rest)
  | _,    _              => none

/-- The decoder: the instruction at the head of a list of bytes, with the bytes that follow it (R46, R47, R57). -/
def decode (c : Config) : List Byte → Except DecodeError (Instr × List Byte)
  | [] => .error .noBytes
  | b :: rest =>
    match dispatchTable c b with
    | none => .error (.illegalOpcode b)
    | some op =>
      match takeOperands op.format rest with
      | none => .error (.missingOperand op)
      | some (opA, opB, rest') => .ok (assemble op opA opB, rest')

/-- The table entry of an instruction. -/
def Instr.opcode : Instr → Opcode
  | .hlt => .hlt
  | .ldi _ _ => .ldi
  | .prn _ => .prn
  | .add _ _ => .add
  | .mul _ _ => .mul
  | .cmp _ _ => .cmp
  | .push _ => .push
  | .pop _ => .pop
  | .call _ => .call
  | .ret => .ret
  | .jmp _ => .jmp
  | .jeq _ => .jeq
  | .jne _ => .jne

/-- The operand bytes of an instruction, A before B (R46). -/
def Instr.operands : Instr → List Byte
  | .hlt => []
  | .ldi r imm => [r, imm]
  | .prn r => [r]
  | .add a b => [a, b]
  | .mul a b => [a, b]
  | .cmp a b => [a, b]
  | .push r => [r]
  | .pop r => [r]
  | .call r => [r]
  | .ret => []
  | .jmp r => [r]
  | .jeq r => [r]
  | .jne r => [r]

/-- The encoder: opcode byte, operand byte A, operand byte B, at ascending addresses (R46, R53). -/
def encode (c : Config) (i : Instr) : List Byte :=
  opcodeByte c i.opcode :: i.operands

/-- The bytes of an instruction whose bits are `w`, numbered as spec/opcode_table.json numbers them (the first byte is bits
7..0), with every bit above `nbits` zero, up to the longest instruction (three bytes, 00_scope.md R4). -/
def tableWordBytes (nbits w : Nat) : List Byte :=
  let v := w % 2 ^ nbits
  [BitVec.ofNat 8 v, BitVec.ofNat 8 (v / 256), BitVec.ofNat 8 (v / 65536)]

/-- What the decoder reads from an instruction whose bits are `w`. -/
def decodeTableWord (nbits w : Nat) : Option Instr :=
  match decode hardware (tableWordBytes nbits w) with
  | .ok (i, _) => some i
  | .error _ => none

end Sys2Proof
end

