-- ==== Sys2Proof/Machine/Fetch.lean ====
section
/-! DEFINITION. Fetching an instruction: parts 1 to 3 of the step, with both settings of `OVERFETCH`
(spec/40_loop_dispatch_hlt.md R61, R62). -/

namespace Sys2Proof.Machine

/-- The dispatch part of the step: the table entry, or `IllegalOpcode(ir)` (R61, R112). -/
def lookup (c : Config) (ir : Byte) : Except FatalError Opcode :=
  match dispatchTable c ir with
  | some op => .ok op
  | none => .error (.illegalOpcode ir)

/-- An operand byte that is read only if the instruction consumes it (R62, `SUPPRESS`). -/
def operandRead (consumed : Bool) (a : Nat) (s : State) : Except FatalError Byte :=
  if consumed then memRead a s else .ok 0

/-- Opcode fetch, dispatch and operand fetch: under `SUPPRESS` the look-up comes before the operand reads and only
consumed bytes are read; under `STRICT3` three bytes are read first (R61, R62). -/
def fetch (c : Config) (s : State) : Except FatalError Instr :=
  match c.overfetch with
  | .suppress => do
    let ir ← memRead s.pc s
    let op ← lookup c ir
    let opA ← operandRead (decide (1 ≤ op.format.ops)) (s.pc + 1) s
    let opB ← operandRead (decide (2 ≤ op.format.ops)) (s.pc + 2) s
    .ok (assemble op opA opB)
  | .strict3 => do
    let ir ← memRead s.pc s
    let opA ← memRead (s.pc + 1) s
    let opB ← memRead (s.pc + 2) s
    let op ← lookup c ir
    .ok (assemble op opA opB)

/-- The bytes of memory from `pc` on that an instruction could consume: those of the three addresses `pc`, `pc + 1`,
`pc + 2` that exist (R61). -/
def codeBytes (s : State) : List Byte :=
  (([s.pc, s.pc + 1, s.pc + 2]).filter fun a => decide (a ≤ 255)).map fun a => cell a s

end Sys2Proof.Machine
end

