-- ==== Sys2Proof/Machine/Step.lean ====
section
/-! DEFINITION. The step of this hardware (spec/40_loop_dispatch_hlt.md R60, R61). -/

namespace Sys2Proof.Machine

/-- One step: enabled only while `run = RUNNING`; fetch and dispatch, then the handler (R60, R61). A fetch that fails
raises its error; a stopped machine has no step. -/
def step (s : State) : Host.Outcome State Fault Refusal :=
  match s.run with
  | .running =>
    match fetch hardware s with
    | .ok i => exec i s
    | .error e => .next (raise e s)
  | .halted => .fault .stopped
  | .faulted _ => .fault .stopped

/-- `s` with an instruction's bytes stored where `step` fetches its next instruction: at `pc`, `pc + 1`, `pc + 2`, as far as
those addresses exist. It stands for the host's load of a program (70_reset_and_hazards.md R131). Log entry 5. -/
def State.withFetchWord (s : State) (nbits w : Nat) : State :=
  { s with mem := memSetList s.pc ((tableWordBytes nbits w).take (256 - s.pc)) s.mem }

end Sys2Proof.Machine
end

