-- ==== Sys2Proof/Machine/HostPort.lean ====
section
/-! DEFINITION. The host's dealings with the block (spec/00_scope.md R6; spec/70_reset_and_hazards.md R130 to R133, R138 to
R141): load, start, the single-step interface, the fault report, the observation channel's text. Reset is `State.reset`. -/

namespace Sys2Proof.Machine

/-- The image load (R131, R133): the bytes go to consecutive cells from address 0 and nothing else changes. An image of more
than 256 bytes has no meaning (D18). Log entry 9. -/
def loadImage (image : List Byte) (s : State) : Option State :=
  if image.length ≤ 256 then some { s with mem := memSetList 0 image s.mem } else none

/-- The state a run of an image begins in: reset, then load (R132, R141). -/
def boot (image : List Byte) : Option State := loadImage image State.reset

/-- `step() -> bool` (40_loop_dispatch_hlt.md R60, D24): the state after the call, and whether `run` is still `RUNNING`. -/
def hostStep (s : State) : State × Bool :=
  match step s with
  | .next t => (t, decide (t.run = .running))
  | .fault _ => (s, false)
  | .refused _ => (s, false)

/-- The pair (kind, info) the host receives when a fault has ended the run (60_exceptions.md R129). -/
def faultReport (s : State) : Option FatalError :=
  match s.run with
  | .faulted e => some e
  | .running => none
  | .halted => none

/-- A run has ended (70_reset_and_hazards.md R139). -/
def ended (s : State) : Bool := decide (s.run ≠ .running)

/-- The decimal digits of `v`, most significant first; `fuel` bounds their number. -/
def decimalDigits : Nat → Nat → List Nat
  | 0, _ => []
  | fuel + 1, v => if v < 10 then [v] else decimalDigits fuel (v / 10) ++ [v % 10]

/-- The digits of the base-10 representation, with no leading zeros, `[0]` for zero (10_state.md R24). -/
def decimal (v : Nat) : List Nat := decimalDigits (v + 1) v

/-- The line a PRN value appears as (10_state.md R24, D15): digits, no sign, no padding, one line terminator. DESIGN CHOICE
the terminator is a line feed, as D15 assumes. Log entry 8. -/
def renderLine (v : Nat) : List Char := (decimal v).map Nat.digitChar ++ ['\n']

/-- What the observation channel has shown (R24, R140). -/
def renderOut (s : State) : List Char := s.out.flatMap renderLine

end Sys2Proof.Machine
end

