-- ==== Sys2Proof/Machine/Variants.lean ====
section
/-! DEFINITION. The machine under ANY configuration (spec/00_scope.md R5): the same meanings as this hardware's, with the
configuration as an argument. It is how `REG_MODE = WIDE`, `STACK_POLICY = WRAP`, `OVERFETCH = STRICT3`, other `FL_RESET` and
other `OPC_*` bytes are modelled; `exec` and `step` are its case `hardware` (Laws/Variants.lean). -/

namespace Sys2Proof.Machine

/-- `exec` under a configuration. -/
def execIn (c : Config) (i : Instr) (s : State) : Host.Outcome State Fault Refusal :=
  match i with
  | .hlt => execHlt s
  | .ldi r imm => execLdi r imm s
  | .prn r => execPrn r s
  | .add a b => addIn c a b s
  | .mul a b => mulIn c a b s
  | .cmp a b => cmpIn c a b s
  | .push r => pushIn c r s
  | .pop r => popIn c r s
  | .call r => callIn c r s
  | .ret => retIn c s
  | .jmp r => execJmp r s
  | .jeq r => execJeq r s
  | .jne r => execJne r s

/-- `step` under a configuration (40_loop_dispatch_hlt.md R60, R61). -/
def stepIn (c : Config) (s : State) : Host.Outcome State Fault Refusal :=
  match s.run with
  | .running =>
    match fetch c s with
    | .ok i => execIn c i s
    | .error e => .next (raise e s)
  | .halted => .fault .stopped
  | .faulted _ => .fault .stopped

end Sys2Proof.Machine
end

