-- ==== Sys2Proof/Safety.lean ====
section
/-! DEFINITION. The terms claims are stated in: what a legal state is, how a run ends, which states a run reaches. -/

namespace Sys2Proof.Machine

/-- Every register holds 0..255, as under `REG_MODE = WRAP8` (10_state.md R12). -/
def RegsFit (s : State) : Prop := ∀ i : Fin 8, readReg i s ≤ 255

/-- `FL` holds one of its reachable values (10_state.md R20). -/
def FlLegal (c : Config) (s : State) : Prop :=
  s.fl = c.flReset ∨ s.fl = flLess ∨ s.fl = flGreater ∨ s.fl = flEqual

/-- What holds of memory and flags under every configuration. -/
structure CommonInv (c : Config) (s : State) : Prop where
  memory : Memory.wf s.mem
  flags : FlLegal c s

/-- A legal state of a `WRAP8` machine: registers and emitted values are bytes (R12, R76), `pc` is at most 256 (R18), memory
is canonical (R30), `FL` is a reachable value (R20). -/
structure Inv (c : Config) (s : State) : Prop extends CommonInv c s where
  regs : RegsFit s
  pc : s.pc ≤ 256
  out : ∀ v ∈ s.out, v ≤ 255

/-- The fatal errors a run of this hardware can end in (60_exceptions.md R110, R114 to R116; 42_alu.md R84). -/
def PossibleError : FatalError → Prop
  | .illegalOpcode b => dispatchTable hardware b = none
  | .unsupportedALUOperation _ => False
  | .outOfBounds .mem a => a = 256
  | .outOfBounds .reg i => 7 < i ∧ i ≤ 255
  | .outOfBounds .val _ => False
  | .stackOverflow p => p = 0
  | .stackUnderflow p => p = 255

/-- The states a run reaches from a state (40_loop_dispatch_hlt.md R66). -/
inductive Reaches (s : State) : State → Prop where
  | refl : Reaches s s
  | step {t u : State} : Reaches s t → Machine.step t = .next u → Reaches s u

/-- The run ended normally: an HLT was executed (70_reset_and_hazards.md R139; 60_exceptions.md R121). -/
def EndedNormally (s : State) : Prop := s.run = .halted

/-- The run was aborted by a fatal error (70_reset_and_hazards.md R139). -/
def Aborted (s : State) : Prop := ∃ e, s.run = .faulted e

end Sys2Proof.Machine
end

