-- ==== Sys2Proof/WellFormed.lean ====
section
/-! DEFINITION. Which instructions are well formed: every register operand byte names a register
(spec/30_encoding.md R49, R55; spec/10_state.md R15). Every immediate is legal (R50). -/

namespace Sys2Proof

/-- The operand byte names one of R0..R7 (R49). -/
def namesRegister (b : Byte) : Bool := decide (b.toNat < 8)

/-- Every register operand of the instruction names a register. An ill-formed instruction still decodes and, executed,
raises `OutOfBounds(REG, byte)` (R55). -/
def Instr.wellFormed : Instr → Bool
  | .hlt => true
  | .ldi r _ => namesRegister r
  | .prn r => namesRegister r
  | .add a b => namesRegister a && namesRegister b
  | .mul a b => namesRegister a && namesRegister b
  | .cmp a b => namesRegister a && namesRegister b
  | .push r => namesRegister r
  | .pop r => namesRegister r
  | .call r => namesRegister r
  | .ret => true
  | .jmp r => namesRegister r
  | .jeq r => namesRegister r
  | .jne r => namesRegister r

end Sys2Proof
end

