-- ==== Sys2Proof/Certificates/Slice0/Obligations.lean ====
section
/-! DEFINITION. The statements for the provers. Each docstring names the rule of spec/ it formalises and the spec's own
decision (92_eei_decisions.md D<n>) or the log entry where a clause rests on one. `exec` and `step` are this hardware;
`execIn c` and `stepIn c` are the same machine under a configuration `c`. -/

section
open Sys2Proof Sys2Proof.Machine

/-! ### Encoding and decoding -/

/-- 30_encoding.md R51 to R53: a word of every table row, written out from its encoding, decodes to its instruction. The nine
default bytes are log entry 1. -/
def Obligations.KnownWordsDecode : Prop :=
  decodeTableWord 8 0x01 = some .hlt ∧
  decodeTableWord 24 0x080082 = some (.ldi 0 8) ∧
  decodeTableWord 16 0x0347 = some (.prn 3) ∧
  decodeTableWord 24 0x0100A0 = some (.add 0 1) ∧
  decodeTableWord 24 0x0506A2 = some (.mul 6 5) ∧
  decodeTableWord 24 0x0201A7 = some (.cmp 1 2) ∧
  decodeTableWord 16 0x0745 = some (.push 7) ∧
  decodeTableWord 16 0x0346 = some (.pop 3) ∧
  decodeTableWord 16 0x0250 = some (.call 2) ∧
  decodeTableWord 8 0x11 = some .ret ∧
  decodeTableWord 16 0x0254 = some (.jmp 2) ∧
  decodeTableWord 16 0x0455 = some (.jeq 4) ∧
  decodeTableWord 16 0x0656 = some (.jne 6) ∧
  decodeTableWord 16 0xFF56 = some (.jne 255)

/-- 30_encoding.md R46, R52, R53: with thirteen distinct opcode bytes, decoding the encoding of ANY instruction, with any
operand bytes and any bytes after it, gives it back. -/
def Obligations.DecodeInvertsEncode : Prop :=
  ∀ c : Config, c.Wf → ∀ (i : Instr) (rest : List Byte), decode c (encode c i ++ rest) = .ok (i, rest)

/-- 30_encoding.md R46, R47, R57: whatever decodes is the encoding of the instruction read, followed by the rest; an
instruction has one to three bytes and each word has one meaning. -/
def Obligations.EncodeInvertsDecode : Prop :=
  ∀ (c : Config) (bytes rest : List Byte) (i : Instr), decode c bytes = .ok (i, rest) →
    bytes = encode c i ++ rest ∧ 1 ≤ (encode c i).length ∧ (encode c i).length ≤ 3

/-- 30_encoding.md R54 and 60_exceptions.md R112: 243 bytes are illegal, 0x00 and 0xFF among them; under any configuration
the illegal bytes are the complement of the thirteen; fetching one raises `IllegalOpcode(byte)` at every address 0..255,
and the machine takes no further step. -/
def Obligations.IllegalOpcodeFaults : Prop :=
  ((List.range 256).countP fun n => (dispatchTable hardware (BitVec.ofNat 8 n)).isNone) = 243 ∧
  dispatchTable hardware 0x00 = none ∧ dispatchTable hardware 0xFF = none ∧
  (∀ (c : Config) (b : Byte), dispatchTable c b = none ↔ ∀ op, opcodeByte c op ≠ b) ∧
  (∀ s : State, s.run = .running → s.pc ≤ 255 → dispatchTable hardware (cell s.pc s) = none →
    step s = .next { s with run := .faulted (.illegalOpcode (cell s.pc s)) } ∧
    step { s with run := .faulted (.illegalOpcode (cell s.pc s)) } = .fault .stopped)

/-! ### The instructions, one by one -/

/-- 40_loop_dispatch_hlt.md R67: HLT completes in every state, changes `run` alone (so `pc` keeps the address of the HLT
byte), and no step follows it; at every address 0..255 (255 under the spec's decision D6) its byte halts a running machine. -/
def Obligations.HltHalts : Prop :=
  (∀ c : Config, encode c .hlt = [0x01]) ∧
  ∀ s : State, exec .hlt s = .next { s with run := .halted } ∧ step { s with run := .halted } = .fault .stopped ∧
    (s.run = .running → s.pc ≤ 255 → cell s.pc s = 0x01 → step s = .next { s with run := .halted })

/-- 41_ldi_prn.md R75: LDI completes for every register and every immediate; a register byte above 7 raises
`OutOfBounds(REG, byte)` (the spec's decision D4). -/
def Obligations.LdiLoadsImmediate : Prop :=
  (∀ (c : Config) (x imm : Byte), encode c (.ldi x imm) = [0x82, x, imm]) ∧
  ∀ (s : State) (imm : Byte),
    (∀ r : Fin 8, exec (.ldi (regByte r) imm) s = .next { writeReg r imm.toNat s with pc := s.pc + 3 }) ∧
    (∀ x : Byte, 7 < x.toNat →
      exec (.ldi x imm) s = .next { s with run := .faulted (.outOfBounds .reg x.toNat) })

/-- 41_ldi_prn.md R76: PRN appends the register's value to `out`; the rest as LDI (D4, D15). -/
def Obligations.PrnEmits : Prop :=
  (∀ (c : Config) (x : Byte), encode c (.prn x) = [0x47, x]) ∧
  ∀ s : State,
    (∀ r : Fin 8, exec (.prn (regByte r)) s = .next { s with out := s.out ++ [readReg r s], pc := s.pc + 2 }) ∧
    (∀ x : Byte, 7 < x.toNat → exec (.prn x) s = .next { s with run := .faulted (.outOfBounds .reg x.toNat) })

/-- 42_alu.md R81: ADD writes the sum reduced modulo 256 on this hardware (D1) and the exact sum under `WIDE`; index A is
checked before index B (D4). -/
def Obligations.AddSums : Prop :=
  (∀ (c : Config) (x y : Byte), encode c (.add x y) = [0xA0, x, y]) ∧
  ∀ s : State,
    (∀ a b : Fin 8, exec (.add (regByte a) (regByte b)) s =
      .next { writeReg a ((readReg a s + readReg b s) % 256) s with pc := s.pc + 3 }) ∧
    (∀ (c : Config) (a b : Fin 8), c.regMode = .wide → execIn c (.add (regByte a) (regByte b)) s =
      .next { writeReg a (readReg a s + readReg b s) s with pc := s.pc + 3 }) ∧
    (∀ x y : Byte, 7 < x.toNat → exec (.add x y) s = .next { s with run := .faulted (.outOfBounds .reg x.toNat) }) ∧
    (∀ (a : Fin 8) (y : Byte), 7 < y.toNat →
      exec (.add (regByte a) y) s = .next { s with run := .faulted (.outOfBounds .reg y.toNat) })

/-- 42_alu.md R82: MUL writes the product, as ADD does the sum; its byte is the parameter `OPC_MUL`. -/
def Obligations.MulMultiplies : Prop :=
  (∀ (c : Config) (x y : Byte), encode c (.mul x y) = [c.opcMul, x, y]) ∧
  ∀ s : State,
    (∀ a b : Fin 8, exec (.mul (regByte a) (regByte b)) s =
      .next { writeReg a ((readReg a s * readReg b s) % 256) s with pc := s.pc + 3 }) ∧
    (∀ (c : Config) (a b : Fin 8), c.regMode = .wide → execIn c (.mul (regByte a) (regByte b)) s =
      .next { writeReg a (readReg a s * readReg b s) s with pc := s.pc + 3 }) ∧
    (∀ x y : Byte, 7 < x.toNat → exec (.mul x y) s = .next { s with run := .faulted (.outOfBounds .reg x.toNat) }) ∧
    (∀ (a : Fin 8) (y : Byte), 7 < y.toNat →
      exec (.mul (regByte a) y) s = .next { s with run := .faulted (.outOfBounds .reg y.toNat) })

/-- 42_alu.md R83: CMP overwrites all of `FL` by the unsigned comparison, exactly one bit set, in every configuration, and
changes nothing else but `pc`. -/
def Obligations.CmpSetsFlags : Prop :=
  (∀ (c : Config) (x y : Byte), encode c (.cmp x y) = [c.opcCmp, x, y]) ∧
  ∀ s : State,
    (∀ a b : Fin 8,
      (readReg a s < readReg b s →
        exec (.cmp (regByte a) (regByte b)) s = .next { s with fl := 0b100, pc := s.pc + 3 }) ∧
      (readReg a s > readReg b s →
        exec (.cmp (regByte a) (regByte b)) s = .next { s with fl := 0b010, pc := s.pc + 3 }) ∧
      (readReg a s = readReg b s →
        exec (.cmp (regByte a) (regByte b)) s = .next { s with fl := 0b001, pc := s.pc + 3 })) ∧
    (∀ (c : Config) (x y : Byte), execIn c (.cmp x y) s = exec (.cmp x y) s) ∧
    (∀ x y : Byte, 7 < x.toNat → exec (.cmp x y) s = .next { s with run := .faulted (.outOfBounds .reg x.toNat) }) ∧
    (∀ (a : Fin 8) (y : Byte), 7 < y.toNat →
      exec (.cmp (regByte a) y) s = .next { s with run := .faulted (.outOfBounds .reg y.toNat) })

/-- 43_stack.md R92: PUSH stores the register's value, read before SP moves (D10), at SP - 1; its faults in the order REG,
VAL, StackOverflow, MEM (D4, D22, D8, D11); the same in both register modes under `STACK_POLICY = FAULT`. -/
def Obligations.PushStores : Prop :=
  (∀ (c : Config) (x : Byte), encode c (.push x) = [c.opcPush, x]) ∧
  ∀ s : State,
    (∀ r : Fin 8, readReg r s ≤ 255 → 1 ≤ sp s → sp s ≤ 256 → exec (.push (regByte r)) s =
      .next { setSp (sp s - 1) s with
        mem := memSet (sp s - 1) (BitVec.ofNat 8 (readReg r s)) s.mem, pc := s.pc + 2 }) ∧
    (∀ x : Byte, 7 < x.toNat → exec (.push x) s = .next { s with run := .faulted (.outOfBounds .reg x.toNat) }) ∧
    (∀ r : Fin 8, 255 < readReg r s →
      exec (.push (regByte r)) s = .next { s with run := .faulted (.outOfBounds .val (readReg r s)) }) ∧
    (∀ r : Fin 8, readReg r s ≤ 255 → sp s = 0 →
      exec (.push (regByte r)) s = .next { s with run := .faulted (.stackOverflow 0) }) ∧
    (∀ r : Fin 8, readReg r s ≤ 255 → 256 < sp s →
      exec (.push (regByte r)) s = .next { s with run := .faulted (.outOfBounds .mem (sp s - 1)) }) ∧
    (∀ (c : Config) (x : Byte), c.stackPolicy = .fault → execIn c (.push x) s = exec (.push x) s)

/-- 43_stack.md R93: POP reads the byte at SP, then SP + 1, then writes the register, so POP R7 leaves SP = the byte (D10);
`StackUnderflow(SP)` above 254 on this hardware and above 255 under `WIDE` (D8). -/
def Obligations.PopLoads : Prop :=
  (∀ (c : Config) (x : Byte), encode c (.pop x) = [c.opcPop, x]) ∧
  ∀ s : State,
    (∀ r : Fin 8, sp s ≤ 254 → exec (.pop (regByte r)) s =
      .next { writeReg r (cell (sp s) s).toNat (setSp (sp s + 1) s) with pc := s.pc + 2 }) ∧
    (∀ x : Byte, 7 < x.toNat → exec (.pop x) s = .next { s with run := .faulted (.outOfBounds .reg x.toNat) }) ∧
    (∀ r : Fin 8, 254 < sp s →
      exec (.pop (regByte r)) s = .next { s with run := .faulted (.stackUnderflow (sp s)) }) ∧
    (∀ (c : Config) (r : Fin 8), c.stackPolicy = .fault → c.regMode = .wide → sp s ≤ 255 →
      execIn c (.pop (regByte r)) s =
        .next { writeReg r (cell (sp s) s).toNat (setSp (sp s + 1) s) with pc := s.pc + 2 }) ∧
    (∀ (c : Config) (r : Fin 8), c.stackPolicy = .fault → c.regMode = .wide → 255 < sp s →
      execIn c (.pop (regByte r)) s = .next { s with run := .faulted (.stackUnderflow (sp s)) })

/-- 44_control_transfer.md R103: CALL pushes `pc + 2` and jumps to the register read after the push (D10); its faults in the
order REG, return address, StackOverflow, MEM (D4, D9, D8, D11). -/
def Obligations.CallPushesReturn : Prop :=
  (∀ (c : Config) (x : Byte), encode c (.call x) = [c.opcCall, x]) ∧
  ∀ s : State,
    (∀ r : Fin 8, s.pc + 2 ≤ 255 → 1 ≤ sp s → sp s ≤ 256 → exec (.call (regByte r)) s =
      .next { setSp (sp s - 1) s with
        mem := memSet (sp s - 1) (BitVec.ofNat 8 (s.pc + 2)) s.mem, pc := readReg r (setSp (sp s - 1) s) }) ∧
    (∀ x : Byte, 7 < x.toNat → exec (.call x) s = .next { s with run := .faulted (.outOfBounds .reg x.toNat) }) ∧
    (∀ r : Fin 8, 255 < s.pc + 2 →
      exec (.call (regByte r)) s = .next { s with run := .faulted (.outOfBounds .mem (s.pc + 2)) }) ∧
    (∀ r : Fin 8, s.pc + 2 ≤ 255 → sp s = 0 →
      exec (.call (regByte r)) s = .next { s with run := .faulted (.stackOverflow 0) }) ∧
    (∀ r : Fin 8, s.pc + 2 ≤ 255 → 256 < sp s →
      exec (.call (regByte r)) s = .next { s with run := .faulted (.outOfBounds .mem (sp s - 1)) }) ∧
    (∀ (c : Config) (x : Byte), c.stackPolicy = .fault → execIn c (.call x) s = exec (.call x) s)

/-- 44_control_transfer.md R104: RET sets `pc` to the popped byte, whatever put it there; `StackUnderflow(SP)` as POP. -/
def Obligations.RetPopsPc : Prop :=
  (∀ c : Config, encode c .ret = [c.opcRet]) ∧
  ∀ s : State,
    (sp s ≤ 254 → exec .ret s = .next { setSp (sp s + 1) s with pc := (cell (sp s) s).toNat }) ∧
    (254 < sp s → exec .ret s = .next { s with run := .faulted (.stackUnderflow (sp s)) }) ∧
    (∀ c : Config, c.stackPolicy = .fault → c.regMode = .wide → sp s ≤ 255 →
      execIn c .ret s = .next { setSp (sp s + 1) s with pc := (cell (sp s) s).toNat }) ∧
    (∀ c : Config, c.stackPolicy = .fault → c.regMode = .wide → 255 < sp s →
      execIn c .ret s = .next { s with run := .faulted (.stackUnderflow (sp s)) })

/-- 44_control_transfer.md R100: JMP sets `pc` to the register, unvalidated, and changes nothing else (D4). -/
def Obligations.JmpTransfers : Prop :=
  (∀ (c : Config) (x : Byte), encode c (.jmp x) = [c.opcJmp, x]) ∧
  ∀ s : State,
    (∀ r : Fin 8, exec (.jmp (regByte r)) s = .next { s with pc := readReg r s }) ∧
    (∀ x : Byte, 7 < x.toNat → exec (.jmp x) s = .next { s with run := .faulted (.outOfBounds .reg x.toNat) })

/-- 44_control_transfer.md R101: JEQ jumps exactly when bit E is 1; the index is checked either way (D4). -/
def Obligations.JeqBranches : Prop :=
  (∀ (c : Config) (x : Byte), encode c (.jeq x) = [c.opcJeq, x]) ∧
  ∀ s : State,
    (∀ r : Fin 8, s.fl[0] = true → exec (.jeq (regByte r)) s = .next { s with pc := readReg r s }) ∧
    (∀ r : Fin 8, s.fl[0] = false → exec (.jeq (regByte r)) s = .next { s with pc := s.pc + 2 }) ∧
    (∀ x : Byte, 7 < x.toNat → exec (.jeq x) s = .next { s with run := .faulted (.outOfBounds .reg x.toNat) })

/-- 44_control_transfer.md R102: JNE jumps exactly when bit E is 0, so for every `FL` exactly one of JEQ and JNE with the
same operand jumps and the other falls through. -/
def Obligations.JneBranches : Prop :=
  (∀ (c : Config) (x : Byte), encode c (.jne x) = [c.opcJne, x]) ∧
  ∀ s : State,
    (∀ r : Fin 8, s.fl[0] = false → exec (.jne (regByte r)) s = .next { s with pc := readReg r s }) ∧
    (∀ r : Fin 8, s.fl[0] = true → exec (.jne (regByte r)) s = .next { s with pc := s.pc + 2 }) ∧
    (∀ x : Byte, 7 < x.toNat → exec (.jne x) s = .next { s with run := .faulted (.outOfBounds .reg x.toNat) }) ∧
    (∀ r : Fin 8,
      (exec (.jeq (regByte r)) s = .next { s with pc := readReg r s } ∧
        exec (.jne (regByte r)) s = .next { s with pc := s.pc + 2 }) ∨
      (exec (.jeq (regByte r)) s = .next { s with pc := s.pc + 2 } ∧
        exec (.jne (regByte r)) s = .next { s with pc := readReg r s }))

/-! ### The loop -/

/-- 40_loop_dispatch_hlt.md R60: a step exists if and only if `run = RUNNING`; `step() -> bool` on a stopped machine changes
nothing and returns false, and otherwise performs that step and says whether `run` is still `RUNNING` (D24). That a missing
step is the outcome `fault stopped` is log entry 3. -/
def Obligations.StepExistsWhileRunning : Prop :=
  ∀ s : State,
    (s.run = .running → ∃ t, step s = .next t ∧ hostStep s = (t, decide (t.run = .running))) ∧
    (s.run ≠ .running → step s = .fault .stopped ∧ hostStep s = (s, false))

/-- 40_loop_dispatch_hlt.md R61: while RUNNING, when the bytes at `pc` (those of `pc`, `pc + 1`, `pc + 2` that lie in memory)
decode to an instruction, well formed or not, the step is that instruction's execution in the same state, and nothing is
added around it. -/
def Obligations.StepRunsDecoded : Prop :=
  ∀ (s : State) (i : Instr) (rest : List Byte), s.run = .running →
    decode hardware (codeBytes s) = .ok (i, rest) → step s = exec i s

/-- 40_loop_dispatch_hlt.md R62 with R61: at the top of memory. A `pc` above 255 (R61), instructions that do not fit below
256 and those that do, an illegal byte at any address, and `STRICT3`, under which nothing executes at 254 or 255 (D6). -/
def Obligations.FetchAtTopOfMemory : Prop :=
  ∀ s : State, s.run = .running →
    (255 < s.pc → step s = .next { s with run := .faulted (.outOfBounds .mem s.pc) }) ∧
    (∀ op, dispatchTable hardware (cell s.pc s) = some op → s.pc ≤ 255 → 255 < s.pc + op.format.ops →
      step s = .next { s with run := .faulted (.outOfBounds .mem 256) }) ∧
    (∀ op, dispatchTable hardware (cell s.pc s) = some op → s.pc ≤ 255 → s.pc + op.format.ops ≤ 255 →
      step s = exec (assemble op (cell (s.pc + 1) s) (cell (s.pc + 2) s)) s) ∧
    (dispatchTable hardware (cell s.pc s) = none → s.pc ≤ 255 →
      step s = .next { s with run := .faulted (.illegalOpcode (cell s.pc s)) }) ∧
    (∀ c : Config, c.overfetch = .strict3 → s.pc = 254 ∨ s.pc = 255 →
      stepIn c s = .next { s with run := .faulted (.outOfBounds .mem 256) })

/-- 40_loop_dispatch_hlt.md R61, R62: where all three addresses are at most 255, `SUPPRESS` and `STRICT3` cannot be told
apart, whatever the other parameters are. -/
def Obligations.OverfetchUnobservable : Prop :=
  ∀ (c : Config) (s : State), s.pc + 2 ≤ 255 →
    stepIn { c with overfetch := .strict3 } s = stepIn { c with overfetch := .suppress } s

/-- 60_exceptions.md R111: under every configuration a step that raises an error changes nothing but `run`, and after it no
step is enabled (D12). -/
def Obligations.FaultChangesOnlyRun : Prop :=
  ∀ (c : Config) (s t : State) (e : FatalError), stepIn c s = .next t → t.run = .faulted e →
    t = { s with run := .faulted e } ∧ stepIn c t = .fault .stopped

/-- 40_loop_dispatch_hlt.md R64 over all instructions. The loop adds nothing to the handler: a fetched instruction's step is
its `exec`. A handler that ends HALTED is HLT's, and changes nothing else; one that raises an error leaves everything else
alone; one that stays RUNNING is not HLT's, and sets `pc` to `pc + length`, to the register its operand names (JMP, CALL,
JEQ, JNE; read as the step leaves it), or (RET) to the byte at SP (R68). -/
def Obligations.HandlerSetsPcOrRun : Prop :=
  ∀ (i : Instr) (s : State), s.run = .running →
    (fetch hardware s = .ok i → step s = exec i s) ∧
    ∀ t : State, exec i s = .next t →
      (t.run = .halted → i = .hlt ∧ t = { s with run := .halted }) ∧
      (∀ e, t.run = .faulted e → t = { s with run := .faulted e }) ∧
      (t.run = .running → i ≠ .hlt ∧
        (((∀ x, i ≠ .jmp x) ∧ (∀ x, i ≠ .call x) ∧ i ≠ .ret ∧ t.pc = s.pc + (encode hardware i).length) ∨
          (∃ r, (i = .jmp (regByte r) ∨ i = .call (regByte r) ∨ i = .jeq (regByte r) ∨ i = .jne (regByte r)) ∧
            t.pc = readReg r t) ∨
          (i = .ret ∧ t.pc = (cell (sp s) s).toNat)))

/-- 10_state.md R20 over all instructions: only CMP writes `FL`, and what it writes is one of the three patterns; an
instruction other than JEQ and JNE does the same to everything but `FL` whatever `FL` holds; JEQ and JNE depend on bit E
alone. -/
def Obligations.FlagsWrittenByCmpReadByJumps : Prop :=
  ∀ (i : Instr) (s t : State), exec i s = .next t →
    (t.fl ≠ s.fl → (∃ a b, i = .cmp a b) ∧ (t.fl = 0b100 ∨ t.fl = 0b010 ∨ t.fl = 0b001)) ∧
    (∀ f : BitVec 3, ((∀ r, i ≠ .jeq r) ∧ (∀ r, i ≠ .jne r)) ∨ f[0] = s.fl[0] →
      ∃ t', exec i { s with fl := f } = .next t' ∧ { t' with fl := 0 } = { t with fl := 0 })

/-- 10_state.md R24 over all instructions: only PRN appends to `out`, nothing removes from it or reads it. -/
def Obligations.OutputOnlyByPrn : Prop :=
  ∀ (i : Instr) (s t : State), exec i s = .next t →
    (t.out = s.out ∨ ∃ r, i = .prn (regByte r) ∧ t.out = s.out ++ [readReg r s]) ∧
    (∀ o : List Nat, ∃ t', exec i { s with out := o } = .next t' ∧ { t' with out := [] } = { t with out := [] })

/-- 20_memory.md R36 over all instructions: memory is written only by PUSH and CALL, and read by no executing instruction but
POP and RET: any other one does the same to everything else whatever memory holds. -/
def Obligations.MemoryOnlyByStack : Prop :=
  ∀ (i : Instr) (s t : State), exec i s = .next t →
    (t.mem ≠ s.mem → (∃ r, i = .push r) ∨ ∃ r, i = .call r) ∧
    ((∀ r, i ≠ .pop r) → i ≠ .ret → ∀ m : List Host.Cell, ∃ t', exec i { s with mem := m } = .next t' ∧
      { t' with mem := [] } = { t with mem := [] })

/-- 42_alu.md R84: the unit raises `UnsupportedALUOperation` for a selector outside ADD, MUL, CMP, and no instruction under
any configuration can make it do so. The selector's numbering is log entry 7. -/
def Obligations.UnsupportedAluUnreachable : Prop :=
  (∀ (c : Config) (n : Nat) (a b : Fin 8) (s : State),
    alu c (.other n) (regByte a) (regByte b) s = .error (.unsupportedALUOperation n)) ∧
  (∀ (c : Config) (s t : State) (n : Nat), stepIn c s = .next t → t.run ≠ .faulted (.unsupportedALUOperation n))

/-- 70_reset_and_hazards.md R139, 60_exceptions.md R121, R129: a step that ends the run ends it in one of two ways: the byte at
`pc` is HLT's and nothing but `run` changes, with no report; or an error is raised, nothing but `run` changes, and the host
is given that error. -/
def Obligations.RunEndsByHltOrFault : Prop :=
  ∀ s t : State, step s = .next t → ended t = true →
    (EndedNormally t ∧ cell s.pc s = 0x01 ∧ t = { s with run := .halted } ∧ faultReport t = none) ∨
    (Aborted t ∧ ∃ e, faultReport t = some e ∧ t = { s with run := .faulted e })

/-! ### Memory, registers, the ALU, the stack primitives -/

/-- 20_memory.md R31, R32: the checked accesses, for every address and value, and what a read sees after a write. -/
def Obligations.CheckedMemoryAccess : Prop :=
  ∀ (a v : Nat) (s : State),
    (255 < a → memRead a s = .error (.outOfBounds .mem a) ∧ memWrite a v s = .error (.outOfBounds .mem a)) ∧
    (a ≤ 255 → memRead a s = .ok (cell a s)) ∧
    (a ≤ 255 → 255 < v → memWrite a v s = .error (.outOfBounds .val v)) ∧
    (a ≤ 255 → v ≤ 255 → ∃ t, memWrite a v s = .ok t ∧ t = { s with mem := t.mem } ∧
      memRead a t = .ok (BitVec.ofNat 8 v) ∧ ∀ b, b ≠ a → cell b t = cell b s)

/-- 10_state.md R11, R13, R15: a read gives the value last written to that index, a write leaves the other seven and all
other state alone, SP is register 7 itself, and an operand byte above 7 names no register. -/
def Obligations.RegisterFile : Prop :=
  (∀ (s : State) (i j : Fin 8) (v : Nat),
    readReg j (writeReg i v s) = (if j = i then v else readReg j s) ∧
    writeReg i v s = { s with x := (writeReg i v s).x } ∧
    sp (writeReg i v s) = (if i = 7 then v else sp s) ∧ setSp v s = writeReg 7 v s) ∧
  (∀ i : Fin 8, regOperand (regByte i) = .ok i ∧ (regByte i).toNat = i.val) ∧
  (∀ b : Byte, 7 < b.toNat → regOperand b = .error (.outOfBounds .reg b.toNat))

/-- 42_alu.md R80: the unit's three operations in both register modes; both operands are read before the write, so the two
operands may be one register; the index checks come first, A before B, whatever the operation. -/
def Obligations.AluUnit : Prop :=
  ∀ (c : Config) (s : State),
    (∀ a b : Fin 8,
      alu c .add (regByte a) (regByte b) s = .ok (writeReg a
        (if c.regMode = .wrap8 then (readReg a s + readReg b s) % 256 else readReg a s + readReg b s) s) ∧
      alu c .mul (regByte a) (regByte b) s = .ok (writeReg a
        (if c.regMode = .wrap8 then (readReg a s * readReg b s) % 256 else readReg a s * readReg b s) s) ∧
      alu c .cmp (regByte a) (regByte b) s = .ok { s with
        fl := (if readReg a s < readReg b s then 0b100 else if readReg a s > readReg b s then 0b010 else 0b001) } ∧
      ∀ n, alu c (.other n) (regByte a) (regByte b) s = .error (.unsupportedALUOperation n)) ∧
    (∀ (op : AluOp) (x y : Byte), 7 < x.toNat → alu c op x y s = .error (.outOfBounds .reg x.toNat)) ∧
    (∀ (op : AluOp) (a : Fin 8) (y : Byte), 7 < y.toNat →
      alu c op (regByte a) y s = .error (.outOfBounds .reg y.toNat))

/-- 42_alu.md R85: exchanging the two registers of ADD or MUL gives the same value (in the other destination), and CMP of the
exchanged operands exchanges LESS and GREATER (R83). -/
def Obligations.AluExchangesOperands : Prop :=
  ∀ (a b : Fin 8) (s t u : State),
    (exec (.add (regByte a) (regByte b)) s = .next t → exec (.add (regByte b) (regByte a)) s = .next u →
      readReg a t = readReg b u) ∧
    (exec (.mul (regByte a) (regByte b)) s = .next t → exec (.mul (regByte b) (regByte a)) s = .next u →
      readReg a t = readReg b u) ∧
    (exec (.cmp (regByte a) (regByte b)) s = .next t → exec (.cmp (regByte b) (regByte a)) s = .next u →
      (t.fl = 0b100 ↔ u.fl = 0b010) ∧ (t.fl = 0b001 ↔ u.fl = 0b001))

/-- 43_stack.md R90: `push(v)` under `STACK_POLICY = FAULT`, with its three checks in order (D8, D22). -/
def Obligations.PushPrimitive : Prop :=
  ∀ (c : Config) (v : Nat) (s : State), c.stackPolicy = .fault →
    (255 < v → push c v s = .error (.outOfBounds .val v)) ∧
    (v ≤ 255 → sp s = 0 → push c v s = .error (.stackOverflow 0)) ∧
    (v ≤ 255 → 256 < sp s → push c v s = .error (.outOfBounds .mem (sp s - 1))) ∧
    (v ≤ 255 → 1 ≤ sp s → sp s ≤ 256 → push c v s =
      .ok { setSp (sp s - 1) s with mem := memSet (sp s - 1) (BitVec.ofNat 8 v) s.mem })

/-- Derived from 43_stack.md R90 and R91: `pop()` under `STACK_POLICY = FAULT` (the spec's decision D8); the cell keeps its
content. The clause that under `WRAP8` no push writes and no pop reads cell 255 is the inference that R91 marks
"[derived: from rules R90 and R91]"; its push half is R90's. -/
def Obligations.PopPrimitive : Prop :=
  ∀ (c : Config) (s : State), c.stackPolicy = .fault →
    ((if c.regMode = .wrap8 then 254 else 255) < sp s → pop c s = .error (.stackUnderflow (sp s))) ∧
    (sp s ≤ (if c.regMode = .wrap8 then 254 else 255) → pop c s = .ok (cell (sp s) s, setSp (sp s + 1) s)) ∧
    (c.regMode = .wrap8 → RegsFit s →
      (∀ v t, push c v s = .ok t → cell 255 t = cell 255 s) ∧
      (∀ (w : Byte) r, pop c s = .ok r → ∃ t', pop c { s with mem := memSet 255 w s.mem } = .ok (r.1, t')))

/-- 43_stack.md R95: under `STACK_POLICY = WRAP` (with `WRAP8`) SP arithmetic is modulo 256 and there is no stack fault: a
push at SP = 0 writes cell 255, a pop at SP = 255 leaves SP = 0. -/
def Obligations.WrapPolicy : Prop :=
  ∀ (c : Config) (s : State), c.Wf → c.stackPolicy = .wrap → RegsFit s →
    (∀ v, v ≤ 255 → ∃ a, (a = if sp s = 0 then 255 else sp s - 1) ∧
      push c v s = .ok { setSp a s with mem := memSet a (BitVec.ofNat 8 v) s.mem }) ∧
    pop c s = .ok (cell (sp s) s, setSp (if sp s = 255 then 0 else sp s + 1) s)

/-- 43_stack.md R93, the source's round-trip property with its precondition: PUSH r then POP r2 gives `reg[r2]` the old
`reg[r]` and restores SP. -/
def Obligations.PushPopRoundTrip : Prop :=
  ∀ (r r2 : Fin 8) (s : State), readReg r s ≤ 255 → 1 ≤ sp s → sp s ≤ 255 → r2 ≠ 7 →
    ∃ t u, exec (.push (regByte r)) s = .next t ∧ exec (.pop (regByte r2)) t = .next u ∧
      readReg r2 u = readReg r s ∧ sp u = sp s ∧ u.pc = s.pc + 4 ∧
      ∀ j, j ≠ r2 → readReg j u = readReg j s

/-- 44_control_transfer.md R104, the source's round-trip property: CALL, then a RET at the target, resumes at the call site
plus 2 with every register, SP among them, as before the CALL. -/
def Obligations.CallRetRoundTrip : Prop :=
  ∀ (r : Fin 8) (s : State), s.pc + 2 ≤ 255 → 1 ≤ sp s → sp s ≤ 255 →
    ∃ t u, exec (.call (regByte r)) s = .next t ∧ exec .ret t = .next u ∧
      u.pc = s.pc + 2 ∧ ∀ j, readReg j u = readReg j s

/-- 20_memory.md R42, R44: the byte a PUSH stores at the address of the next instruction is the opcode the very next step
looks up, whatever stood there: 0x01 halts the machine; a byte that is no opcode raises `IllegalOpcode`; any opcode byte
runs its instruction on the operand bytes then in memory, or, where an operand byte it consumes would lie past 255, raises
`OutOfBounds(MEM, 256)` (40_loop_dispatch_hlt.md R61, the spec's decisions D5 and D6). -/
def Obligations.StoreIsFetchedNext : Prop :=
  ∀ (r : Fin 8) (s : State), s.run = .running → readReg r s ≤ 255 → sp s = s.pc + 3 → sp s ≤ 256 →
    ∃ t, exec (.push (regByte r)) s = .next t ∧ t.pc = sp t ∧ cell t.pc t = BitVec.ofNat 8 (readReg r s) ∧
      (readReg r s = 1 → step t = .next { t with run := .halted }) ∧
      (dispatchTable hardware (BitVec.ofNat 8 (readReg r s)) = none →
        step t = .next { t with run := .faulted (.illegalOpcode (BitVec.ofNat 8 (readReg r s))) }) ∧
      (∀ op, dispatchTable hardware (BitVec.ofNat 8 (readReg r s)) = some op →
        (t.pc + op.format.ops ≤ 255 → step t = exec (assemble op (cell (t.pc + 1) t) (cell (t.pc + 2) t)) t) ∧
        (255 < t.pc + op.format.ops → step t = .next { t with run := .faulted (.outOfBounds .mem 256) }))

/-! ### Reset, load, output -/

/-- 10_state.md R29 and 70_reset_and_hazards.md R130: what reset leaves; `FL` is `FL_RESET`, 0b000 on this hardware (D2). -/
def Obligations.ResetState : Prop :=
  (∀ c : Config, (∀ a, cell a (resetIn c) = 0) ∧ (∀ i, readReg i (resetIn c) = 0) ∧ (resetIn c).pc = 0 ∧
    (resetIn c).fl = c.flReset ∧ (resetIn c).run = .running ∧ (resetIn c).out = []) ∧
  State.reset = resetIn hardware ∧ State.reset.fl = 0b000

/-- Derived from 70_reset_and_hazards.md R131 to R133: an image of at most 256 bytes fills the cells from address 0, the
others stay 0, and nothing but memory changes; the start state is a function of the image. That memory is in the canonical
form is the model's choice, log entry 10; that a longer image answers none is R133 (D18) in the form of log entry 9. -/
def Obligations.LoadFillsMemory : Prop :=
  ∀ image : List Byte,
    (image.length ≤ 256 → ∃ s, boot image = some s ∧ s = { State.reset with mem := s.mem } ∧ Memory.wf s.mem ∧
      ∀ a, cell a s = image.getD a 0) ∧
    (256 < image.length → boot image = none)

/-- 70_reset_and_hazards.md R133: an empty image is legal; its first step raises `IllegalOpcode(0)`, since 0x00 is no opcode
(20_memory.md R37). -/
def Obligations.EmptyImageFaults : Prop :=
  boot [] = some State.reset ∧
  step State.reset = .next { State.reset with run := .faulted (.illegalOpcode 0) }

/-- 10_state.md R24: the digits of an emitted value are its base-10 representation, most significant first, with no leading
zero but for zero itself. The line feed that ends the line is log entry 8 (D15). -/
def Obligations.DecimalOutput : Prop :=
  ∀ v : Nat,
    (decimal v).foldl (fun acc d => 10 * acc + d) 0 = v ∧ (∀ d ∈ decimal v, d < 10) ∧ decimal v ≠ [] ∧
    (v ≠ 0 → (decimal v).head? ≠ some 0) ∧ (v = 0 → decimal v = [0]) ∧
    renderLine v = (decimal v).map Nat.digitChar ++ [Char.ofNat 10]

/-! ### Frames -/

/-- The frame of LDI, ADD and MUL (10_state.md R14; 42_alu.md R86): the destination is the register of operand A; every other
register, `FL`, every cell and `out` are unchanged. -/
def Obligations.FrameRegisterWriters : Prop :=
  ∀ (i : Instr) (x y : Byte) (s t : State), (i = .ldi x y ∨ i = .add x y ∨ i = .mul x y) → exec i s = .next t →
    (∀ j : Fin 8, x ≠ regByte j → readReg j t = readReg j s) ∧ t.fl = s.fl ∧ t.out = s.out ∧
    (∀ a, cell a t = cell a s) ∧ (t.run = s.run ∨ ∃ e, t.run = .faulted e ∧ t.x = s.x ∧ t.pc = s.pc)

/-- The frame of HLT, PRN, CMP, JMP, JEQ and JNE (10_state.md R14): no register and no cell changes; `FL` only by CMP, `out`
only by PRN, `run` only by HLT or a fault. -/
def Obligations.FrameNoRegisterWriters : Prop :=
  ∀ (i : Instr) (s t : State),
    (i = .hlt ∨ (∃ x, i = .prn x) ∨ (∃ x y, i = .cmp x y) ∨ (∃ x, i = .jmp x) ∨ (∃ x, i = .jeq x) ∨ ∃ x, i = .jne x) →
    exec i s = .next t →
    (∀ j : Fin 8, readReg j t = readReg j s) ∧ (∀ a, cell a t = cell a s) ∧
    ((∀ x y, i ≠ .cmp x y) → t.fl = s.fl) ∧ ((∀ x, i ≠ .prn x) → t.out = s.out) ∧
    (t.run = s.run ∨ (i = .hlt ∧ t.run = .halted) ∨ ∃ e, t.run = .faulted e)

/-- The frame of PUSH and CALL (43_stack.md R92; 44_control_transfer.md R103): SP is the only register written; if `pushAddr`,
which the meaning uses, gives `a` in the state before, every cell but `a` is unchanged, and if it gives an error, every cell
is. -/
def Obligations.FrameStackWriters : Prop :=
  ∀ (i : Instr) (x : Byte) (s t : State), (i = .push x ∨ i = .call x) → exec i s = .next t →
    (∀ j : Fin 8, j ≠ 7 → readReg j t = readReg j s) ∧ t.fl = s.fl ∧ t.out = s.out ∧
    (∀ a, pushAddr hardware s = .ok a → ∀ b, b ≠ a → cell b t = cell b s) ∧
    (∀ e, pushAddr hardware s = .error e → ∀ b, cell b t = cell b s) ∧
    (t.run = s.run ∨ ∃ e, t.run = .faulted e ∧ t.x = s.x ∧ t.pc = s.pc ∧ t.mem = s.mem)

/-- The frame of POP and RET (43_stack.md R93; 44_control_transfer.md R104; 10_state.md R28): SP and, for POP, the operand's
register are written; no cell changes, not even the popped one. -/
def Obligations.FrameStackReaders : Prop :=
  ∀ (i : Instr) (s t : State), (i = .ret ∨ ∃ x, i = .pop x) → exec i s = .next t →
    (∀ j : Fin 8, j ≠ 7 → i ≠ .pop (regByte j) → readReg j t = readReg j s) ∧ t.fl = s.fl ∧ t.out = s.out ∧
    (∀ a, cell a t = cell a s) ∧ (t.run = s.run ∨ ∃ e, t.run = .faulted e ∧ t.x = s.x ∧ t.pc = s.pc)

/-! ### Invariants and the whole machine -/

/-- The reset state, and the state a conforming image is started in, meet the invariant. -/
def Obligations.BootMeetsInvariant : Prop :=
  Inv hardware State.reset ∧ ∀ (image : List Byte) (s : State), boot image = some s → Inv hardware s

/-- 10_state.md R12, R18, R20, R24, R30: from every state that meets it, a step of this hardware keeps the invariant:
registers and emitted values at most 255, `pc` at most 256, `FL` a reachable value, memory canonical. -/
def Obligations.StepKeepsInvariant : Prop :=
  ∀ s t : State, Inv hardware s → step s = .next t → Inv hardware t

/-- The same of every machine with `REG_MODE = WRAP8`, whatever its opcode bytes, `FL_RESET`, `OVERFETCH` and
`STACK_POLICY`. -/
def Obligations.EveryWrapMachineKeepsInvariant : Prop :=
  ∀ (c : Config) (s t : State), c.regMode = .wrap8 → Inv c s → stepIn c s = .next t → Inv c t

/-- Under EVERY configuration, `WIDE` among them, a step keeps memory canonical and `FL` a reachable value
(20_memory.md R30; 10_state.md R20). -/
def Obligations.EveryMachineKeepsMemoryAndFlags : Prop :=
  ∀ (c : Config) (s t : State), CommonInv c s → stepIn c s = .next t → CommonInv c t

/-- Every state any run of any conforming image reaches meets the invariant (40_loop_dispatch_hlt.md R66;
70_reset_and_hazards.md R132). `Reaches` rests on log entry 6: the host does not touch the state during a run (D17). -/
def Obligations.EveryRunKeepsInvariant : Prop :=
  ∀ (image : List Byte) (s t : State), boot image = some s → Reaches s t → Inv hardware t

/-- 60_exceptions.md R110, R114, R115, R116: the only errors a step of this hardware can raise, and with which `info`: an
illegal byte; `(MEM, 256)`; `(REG, i)` with i in 8..255; `StackOverflow(0)`; `StackUnderflow(255)`. -/
def Obligations.OnlyPossibleErrors : Prop :=
  ∀ (s t : State) (e : FatalError), Inv hardware s → step s = .next t → t.run = .faulted e → PossibleError e

/-- 92_eei_decisions.md D1, 93_implementation_defined.md U1: on byte registers the two register modes agree on every
instruction, except an ADD or MUL whose exact result exceeds 255 and a POP or RET at SP = 255. -/
def Obligations.RegisterModesAgree : Prop :=
  ∀ (c : Config) (i : Instr) (s : State), c.stackPolicy = .fault → RegsFit s →
    (∀ a b, i = .add (regByte a) (regByte b) → readReg a s + readReg b s ≤ 255) →
    (∀ a b, i = .mul (regByte a) (regByte b) → readReg a s * readReg b s ≤ 255) →
    ((i = .ret ∨ ∃ x, i = .pop x) → sp s ≠ 255) →
    execIn { c with regMode := .wide } i s = execIn { c with regMode := .wrap8 } i s

end
end

