-- ==== Sys2Proof/Laws/Decode.lean ====
section
/-! SUPPORT. The dispatch table as a function of the byte: which entry it gives, and that an entry's own byte gives it when
the thirteen bytes are distinct (spec/30_encoding.md R52 to R54). -/

namespace Sys2Proof

variable {c : Config}

theorem mem_allOpcodes (op : Opcode) : op ∈ allOpcodes := by cases op <;> decide

/-- The table gives an entry only for that entry's byte. -/
theorem opcodeByte_of_dispatch {b : Byte} {op : Opcode} (h : dispatchTable c b = some op) : opcodeByte c op = b := by
  simpa using List.find?_some h

/-- The table is absent exactly on the bytes that are none of the thirteen. -/
theorem dispatch_none_iff {b : Byte} : dispatchTable c b = none ↔ ∀ op, opcodeByte c op ≠ b := by
  simp only [dispatchTable, List.find?_eq_none, beq_iff_eq]
  exact ⟨fun h op => h op (mem_allOpcodes op), fun h op _ => h op⟩

theorem opcodeByte_injective (hc : (allOpcodes.map (opcodeByte c)).Nodup) {p q : Opcode}
    (h : opcodeByte c p = opcodeByte c q) : p = q :=
  List.inj_on_of_nodup_map hc (mem_allOpcodes p) (mem_allOpcodes q) h

/-- With distinct bytes, the table gives each entry for its byte. -/
theorem dispatch_opcodeByte (hc : (allOpcodes.map (opcodeByte c)).Nodup) (op : Opcode) :
    dispatchTable c (opcodeByte c op) = some op := by
  cases h : dispatchTable c (opcodeByte c op) with
  | none => exact absurd rfl (dispatch_none_iff.mp h op)
  | some q => rw [opcodeByte_injective hc (opcodeByte_of_dispatch h)]

theorem hardware_wf : hardware.Wf := by decide

theorem assemble_opcode (op : Opcode) (opA opB : Byte) : (assemble op opA opB).opcode = op := by cases op <;> rfl

end Sys2Proof
end

