-- ==== Sys2Proof/Laws/Memory.lean ====
section
/-! SUPPORT. The laws of memory: a read after a write, canonical form, checked access (spec/20_memory.md R30 to R33). The
read-after-write laws hold of every list of entries, canonical or not. -/

namespace Sys2Proof.Machine

/-- Entries below `b` in front of a list do not matter to a read at or above `b`. -/
theorem memGet_dropWhile_le (a b : Nat) (m : List Host.Cell) (h : a < b) :
    memGet (m.dropWhile fun p => decide (p.1 ≤ a)) b = memGet m b := by
  induction m with
  | nil => rfl
  | cons p rest ih =>
    obtain ⟨q, v⟩ := p
    by_cases hq : q ≤ a
    · rw [List.dropWhile_cons_of_pos (by simpa using hq), ih]
      simp [memGet, Nat.not_lt.mpr (by omega : q ≤ b), show b ≠ q by omega]
    · rw [List.dropWhile_cons_of_neg (by simpa using hq)]

/-- A read of an address below every entry that can come first finds none. -/
theorem memGet_dropWhile_of_le (a b : Nat) (m : List Host.Cell) (h : b ≤ a) :
    memGet (m.dropWhile fun p => decide (p.1 ≤ a)) b = unlistedCell := by
  induction m with
  | nil => rfl
  | cons p rest ih =>
    obtain ⟨q, v⟩ := p
    by_cases hq : q ≤ a
    · rw [List.dropWhile_cons_of_pos (by simpa using hq), ih]
    · rw [List.dropWhile_cons_of_neg (by simpa using hq)]
      simp [memGet, show b < q by omega]

/-- Reading through the entries of a write: below the address the old entries, at it the value, above it the old entries. -/
theorem memGet_memSet (a b : Nat) (v : Byte) (m : List Host.Cell) :
    memGet (memSet a v m) b = if b = a then v else memGet m b := by
  induction m with
  | nil =>
    by_cases hv : v = unlistedCell <;> simp only [memSet, hv, List.takeWhile_nil, List.dropWhile_nil, memGet,
      List.nil_append, List.append_nil, if_true, if_false] <;> split_ifs <;> first | rfl | omega
  | cons p rest ih =>
    obtain ⟨q, w⟩ := p
    by_cases hq : q < a
    · have : memSet a v ((q, w) :: rest) = (q, w) :: memSet a v rest := by
        simp [memSet, hq, hq.le]
      rw [this]
      simp only [memGet, ih]
      split_ifs <;> first | rfl | omega
    · have : memSet a v ((q, w) :: rest) = (if v = unlistedCell then [] else [(a, v)]) ++
          ((q, w) :: rest).dropWhile (fun p => decide (p.1 ≤ a)) := by
        simp [memSet, hq]
      rw [this]
      rcases Nat.lt_trichotomy b a with hb | hb | hb
      · have h1 : memGet ((q, w) :: rest) b = unlistedCell := by simp [memGet, show b < q by omega]
        rw [if_neg (show ¬ b = a by omega), h1]
        by_cases hv : v = unlistedCell
        · simpa [hv] using memGet_dropWhile_of_le a b ((q, w) :: rest) hb.le
        · simp [hv, memGet, hb]
      · subst hb
        by_cases hv : v = unlistedCell
        · simpa [hv] using memGet_dropWhile_of_le b b ((q, w) :: rest) le_rfl
        · simp [hv, memGet]
      · rw [if_neg (show ¬ b = a by omega), ← memGet_dropWhile_le a b ((q, w) :: rest) hb]
        by_cases hv : v = unlistedCell
        · simp [hv]
        · simp [hv, memGet, show ¬ b < a by omega, show b ≠ a by omega]

@[simp] theorem memGet_memSet_self (a : Nat) (v : Byte) (m : List Host.Cell) : memGet (memSet a v m) a = v := by
  simp [memGet_memSet]

theorem memGet_memSet_ne {a b : Nat} (h : b ≠ a) (v : Byte) (m : List Host.Cell) :
    memGet (memSet a v m) b = memGet m b := by
  simp [memGet_memSet, h]

/-- The reset memory is canonical. -/
theorem wf_nil : Memory.wf [] := by simp [Memory.wf]

theorem mem_dropWhile_gt {a : Nat} {m : List Host.Cell} (hm : m.Pairwise fun p q => p.1 < q.1) :
    ∀ p ∈ m.dropWhile (fun p => decide (p.1 ≤ a)), a < p.1 := by
  induction m with
  | nil => simp
  | cons q rest ih =>
    rw [List.pairwise_cons] at hm
    by_cases hq : q.1 ≤ a
    · rw [List.dropWhile_cons_of_pos (by simpa using hq)]
      exact ih hm.2
    · rw [List.dropWhile_cons_of_neg (by simpa using hq)]
      intro p hp
      rcases List.mem_cons.mp hp with rfl | hp
      · omega
      · have := hm.1 p hp; omega

/-- A write below address 256 keeps the canonical form. -/
theorem wf_memSet {a : Nat} (ha : a < 256) (v : Byte) {m : List Host.Cell} (hm : Memory.wf m) :
    Memory.wf (memSet a v m) := by
  obtain ⟨hs, hc⟩ := hm
  have hlow : ∀ p ∈ m.takeWhile (fun p => decide (p.1 < a)), p.1 < a := by
    intro p hp
    simpa using List.mem_takeWhile_imp hp
  have hhigh := mem_dropWhile_gt (a := a) hs
  have hin1 : ∀ p ∈ m.takeWhile (fun p => decide (p.1 < a)), p ∈ m :=
    fun p hp => (List.takeWhile_sublist _).subset hp
  have hin2 : ∀ p ∈ m.dropWhile (fun p => decide (p.1 ≤ a)), p ∈ m :=
    fun p hp => (List.dropWhile_sublist _).subset hp
  refine ⟨?_, ?_⟩
  · unfold memSet
    rw [List.pairwise_append]
    refine ⟨hs.sublist (List.takeWhile_sublist _), ?_, ?_⟩
    · rw [List.pairwise_append]
      refine ⟨?_, hs.sublist (List.dropWhile_sublist _), ?_⟩
      · split <;> simp
      · intro p hp q hq
        split at hp
        · simp at hp
        · simp only [List.mem_singleton] at hp
          subst hp
          exact hhigh q hq
    · intro p hp q hq
      have hpa := hlow p hp
      rcases List.mem_append.mp hq with hq | hq
      · split at hq
        · simp at hq
        · simp only [List.mem_singleton] at hq
          subst hq
          exact hpa
      · have := hhigh q hq; omega
  · intro p hp
    unfold memSet at hp
    rcases List.mem_append.mp hp with hp | hp
    · exact hc p (hin1 p hp)
    · rcases List.mem_append.mp hp with hp | hp
      · split at hp
        · simp at hp
        · simp only [List.mem_singleton] at hp
          subst hp
          exact ⟨ha, by assumption⟩
      · exact hc p (hin2 p hp)

/-- Loading bytes that end at or below address 256 keeps the canonical form. -/
theorem wf_memSetList (bs : List Byte) : ∀ (a : Nat) (m : List Host.Cell), a + bs.length ≤ 256 → Memory.wf m →
    Memory.wf (memSetList a bs m) := by
  induction bs with
  | nil => exact fun _ _ _ hm => hm
  | cons b bs ih =>
    intro a m hle hm
    simp only [List.length_cons] at hle
    exact ih (a + 1) _ (by omega) (wf_memSet (by omega) b hm)

/-- What a loaded range of cells holds, and that nothing else changes. -/
theorem memGet_memSetList (bs : List Byte) : ∀ (a b : Nat) (m : List Host.Cell),
    memGet (memSetList a bs m) b = if h : a ≤ b ∧ b - a < bs.length then bs[b - a]'h.2 else memGet m b := by
  induction bs with
  | nil => intro a b m; simp [memSetList]
  | cons x bs ih =>
    intro a b m
    simp only [memSetList]
    rw [ih, memGet_memSet]
    rcases Nat.lt_trichotomy b a with hb | hb | hb
    · rw [dif_neg (by omega), dif_neg (by omega), if_neg (by omega)]
    · subst hb
      rw [dif_neg (by omega), dif_pos (by simp), if_pos rfl]
      simp
    · have e : b - a = (b - (a + 1)) + 1 := by omega
      by_cases hlen : b - (a + 1) < bs.length
      · rw [dif_pos ⟨by omega, hlen⟩, dif_pos ⟨by omega, by simp; omega⟩]
        simp [e]
      · rw [dif_neg (by omega), dif_neg (by simp; omega), if_neg (by omega)]

/-! ### Checked access -/

theorem memRead_of_le {a : Nat} (h : a ≤ 255) (s : State) : memRead a s = .ok (cell a s) := by
  simp [memRead, Nat.not_lt.mpr h]

theorem memRead_of_gt {a : Nat} (h : 255 < a) (s : State) : memRead a s = .error (.outOfBounds .mem a) := by
  simp [memRead, h]

theorem memWrite_of_le {a v : Nat} (ha : a ≤ 255) (hv : v ≤ 255) (s : State) :
    memWrite a v s = .ok { s with mem := memSet a (BitVec.ofNat 8 v) s.mem } := by
  simp [memWrite, Nat.not_lt.mpr ha, Nat.not_lt.mpr hv]

/-- All a checked write can do. -/
theorem memWrite_ok {a v : Nat} {s t : State} (h : memWrite a v s = .ok t) :
    a ≤ 255 ∧ v ≤ 255 ∧ t = { s with mem := memSet a (BitVec.ofNat 8 v) s.mem } := by
  unfold memWrite at h
  split at h
  · cases h
  · split at h
    · cases h
    · cases h
      exact ⟨by omega, by omega, rfl⟩

end Sys2Proof.Machine
end

