-- ==== Sys2Proof/Laws/State.lean ====
section
/-! SUPPORT. What each named operation does to each field of the state, register by register and cell by cell, so that no
proof unfolds a record update. -/

namespace Sys2Proof.Machine

variable (s : State)

@[simp] theorem writeReg_mem (i : Fin 8) (v : Nat) : (writeReg i v s).mem = s.mem := rfl
@[simp] theorem writeReg_x (i : Fin 8) (v : Nat) : (writeReg i v s).x = s.x.set i v := rfl
@[simp] theorem writeReg_pc (i : Fin 8) (v : Nat) : (writeReg i v s).pc = s.pc := rfl
@[simp] theorem writeReg_fl (i : Fin 8) (v : Nat) : (writeReg i v s).fl = s.fl := rfl
@[simp] theorem writeReg_run (i : Fin 8) (v : Nat) : (writeReg i v s).run = s.run := rfl
@[simp] theorem writeReg_out (i : Fin 8) (v : Nat) : (writeReg i v s).out = s.out := rfl

@[simp] theorem setSp_mem (v : Nat) : (setSp v s).mem = s.mem := rfl
@[simp] theorem setSp_x (v : Nat) : (setSp v s).x = s.x.set spIndex v := rfl
@[simp] theorem setSp_pc (v : Nat) : (setSp v s).pc = s.pc := rfl
@[simp] theorem setSp_fl (v : Nat) : (setSp v s).fl = s.fl := rfl
@[simp] theorem setSp_run (v : Nat) : (setSp v s).run = s.run := rfl
@[simp] theorem setSp_out (v : Nat) : (setSp v s).out = s.out := rfl

@[simp] theorem advance_mem (n : Nat) : (advance n s).mem = s.mem := rfl
@[simp] theorem advance_x (n : Nat) : (advance n s).x = s.x := rfl
@[simp] theorem advance_pc (n : Nat) : (advance n s).pc = s.pc + n := rfl
@[simp] theorem advance_fl (n : Nat) : (advance n s).fl = s.fl := rfl
@[simp] theorem advance_run (n : Nat) : (advance n s).run = s.run := rfl
@[simp] theorem advance_out (n : Nat) : (advance n s).out = s.out := rfl

@[simp] theorem jump_mem (t : Nat) : (jump t s).mem = s.mem := rfl
@[simp] theorem jump_x (t : Nat) : (jump t s).x = s.x := rfl
@[simp] theorem jump_pc (t : Nat) : (jump t s).pc = t := rfl
@[simp] theorem jump_fl (t : Nat) : (jump t s).fl = s.fl := rfl
@[simp] theorem jump_run (t : Nat) : (jump t s).run = s.run := rfl
@[simp] theorem jump_out (t : Nat) : (jump t s).out = s.out := rfl

@[simp] theorem emit_mem (v : Nat) : (emit v s).mem = s.mem := rfl
@[simp] theorem emit_x (v : Nat) : (emit v s).x = s.x := rfl
@[simp] theorem emit_pc (v : Nat) : (emit v s).pc = s.pc := rfl
@[simp] theorem emit_fl (v : Nat) : (emit v s).fl = s.fl := rfl
@[simp] theorem emit_run (v : Nat) : (emit v s).run = s.run := rfl
@[simp] theorem emit_out (v : Nat) : (emit v s).out = s.out ++ [v] := rfl

@[simp] theorem raise_mem (e : FatalError) : (raise e s).mem = s.mem := rfl
@[simp] theorem raise_x (e : FatalError) : (raise e s).x = s.x := rfl
@[simp] theorem raise_pc (e : FatalError) : (raise e s).pc = s.pc := rfl
@[simp] theorem raise_fl (e : FatalError) : (raise e s).fl = s.fl := rfl
@[simp] theorem raise_run (e : FatalError) : (raise e s).run = .faulted e := rfl
@[simp] theorem raise_out (e : FatalError) : (raise e s).out = s.out := rfl

/-! ### Registers: a read after a write, and what the other operations leave -/

@[simp] theorem readReg_writeReg_self (i : Fin 8) (v : Nat) : readReg i (writeReg i v s) = v := by
  simp [readReg, writeReg]

theorem readReg_writeReg_ne {i j : Fin 8} (h : j ≠ i) (v : Nat) : readReg j (writeReg i v s) = readReg j s := by
  have h' : i.val ≠ j.val := fun e => h (Fin.ext e.symm)
  simp [readReg, writeReg, h']

theorem readReg_writeReg (i j : Fin 8) (v : Nat) :
    readReg j (writeReg i v s) = if j = i then v else readReg j s := by
  split
  · next h => subst h; simp
  · next h => exact readReg_writeReg_ne s h v

@[simp] theorem sp_setSp (v : Nat) : sp (setSp v s) = v := readReg_writeReg_self s spIndex v

theorem readReg_setSp_ne {j : Fin 8} (h : j ≠ spIndex) (v : Nat) : readReg j (setSp v s) = readReg j s :=
  readReg_writeReg_ne s h v

@[simp] theorem readReg_advance (j : Fin 8) (n : Nat) : readReg j (advance n s) = readReg j s := rfl
@[simp] theorem readReg_jump (j : Fin 8) (t : Nat) : readReg j (jump t s) = readReg j s := rfl
@[simp] theorem readReg_emit (j : Fin 8) (v : Nat) : readReg j (emit v s) = readReg j s := rfl
@[simp] theorem readReg_raise (j : Fin 8) (e : FatalError) : readReg j (raise e s) = readReg j s := rfl

@[simp] theorem cell_writeReg (a : Nat) (i : Fin 8) (v : Nat) : cell a (writeReg i v s) = cell a s := rfl
@[simp] theorem cell_setSp (a : Nat) (v : Nat) : cell a (setSp v s) = cell a s := rfl
@[simp] theorem cell_advance (a : Nat) (n : Nat) : cell a (advance n s) = cell a s := rfl
@[simp] theorem cell_jump (a : Nat) (t : Nat) : cell a (jump t s) = cell a s := rfl
@[simp] theorem cell_emit (a : Nat) (v : Nat) : cell a (emit v s) = cell a s := rfl
@[simp] theorem cell_raise (a : Nat) (e : FatalError) : cell a (raise e s) = cell a s := rfl

/-- Two states with the same registers read the same. -/
theorem readReg_congr {s t : State} (h : t.x = s.x) (j : Fin 8) : readReg j t = readReg j s := by
  simp [readReg, h]

/-! ### Register operand bytes -/

@[simp] theorem regOperand_regByte (i : Fin 8) : regOperand (regByte i) = .ok i := by
  revert i; decide

theorem regOperand_of_lt {b : Byte} (h : b.toNat < 8) : regOperand b = .ok ⟨b.toNat, h⟩ := by
  simp [regOperand, h]

theorem regOperand_of_gt {b : Byte} (h : 7 < b.toNat) : regOperand b = .error (.outOfBounds .reg b.toNat) := by
  simp [regOperand, Nat.not_lt.mpr h]

/-- Every register operand byte is a register's own byte or is above 7. -/
theorem regByte_or_gt (b : Byte) : (∃ i, b = regByte i) ∨ 7 < b.toNat := by
  by_cases h : b.toNat < 8
  · refine .inl ⟨⟨b.toNat, h⟩, ?_⟩
    simp [regByte]
  · exact .inr (by omega)

end Sys2Proof.Machine
end

