-- ==== Sys2Proof/Laws/Ops.lean ====
section
/-! SUPPORT. For each shared operation, once: when it succeeds and with what, and when it raises which error
(spec/43_stack.md R90, R91, R95; spec/42_alu.md R80; spec/60_exceptions.md R111). -/

namespace Sys2Proof.Machine

variable {c : Config} {s t : State}

@[simp] theorem settle_ok (s t : State) : settle s (.ok t) = .next t := rfl
@[simp] theorem settle_error (s : State) (e : FatalError) : settle s (.error e) = .next (raise e s) := rfl

/-- All a settled step can answer. -/
theorem settle_next {r : Except FatalError State} (h : settle s r = .next t) :
    r = .ok t ∨ ∃ e, r = .error e ∧ t = raise e s := by
  cases r with
  | ok u => cases h; exact .inl rfl
  | error e => cases h; exact .inr ⟨e, rfl, rfl⟩

@[simp] theorem bind_ok {α β : Type} (a : α) (f : α → Except FatalError β) : (Except.ok a >>= f) = f a := rfl
@[simp] theorem bind_error {α β : Type} (e : FatalError) (f : α → Except FatalError β) :
    ((Except.error e : Except FatalError α) >>= f) = .error e := rfl

/-- A computation that succeeds has succeeded in its first part and then in its second. -/
theorem bind_eq_ok {α β : Type} {x : Except FatalError α} {f : α → Except FatalError β} {b : β}
    (h : (x >>= f) = .ok b) : ∃ a, x = .ok a ∧ f a = .ok b := by
  cases x with
  | ok a => exact ⟨a, rfl, h⟩
  | error e => cases h

/-- A computation that raises an error raised it in its first part, or in its second. -/
theorem bind_eq_error {α β : Type} {x : Except FatalError α} {f : α → Except FatalError β} {e : FatalError}
    (h : (x >>= f) = .error e) : x = .error e ∨ ∃ a, x = .ok a ∧ f a = .error e := by
  cases x with
  | ok a => exact .inr ⟨a, rfl, h⟩
  | error e' => cases h; exact .inl rfl

@[simp] theorem require_true {p : Prop} [Decidable p] (h : p) (e : FatalError) : require p e = .ok () := by
  simp [require, h]

@[simp] theorem require_false {p : Prop} [Decidable p] (h : ¬ p) (e : FatalError) : require p e = .error e := by
  simp [require, h]

theorem require_eq_ok {p : Prop} [Decidable p] {e : FatalError} {u : Unit} (h : require p e = .ok u) : p := by
  unfold require at h; split at h
  · assumption
  · cases h

theorem require_eq_error {p : Prop} [Decidable p] {e e' : FatalError} (h : require p e = .error e') :
    ¬ p ∧ e' = e := by
  unfold require at h; split at h
  · cases h
  · cases h; exact ⟨by assumption, rfl⟩

theorem regOperand_eq_ok {b : Byte} {r : Fin 8} (h : regOperand b = .ok r) : b = regByte r := by
  rcases regByte_or_gt b with ⟨i, rfl⟩ | hb
  · rw [regOperand_regByte] at h; cases h; rfl
  · rw [regOperand_of_gt hb] at h; cases h

theorem regOperand_eq_error {b : Byte} {e : FatalError} (h : regOperand b = .error e) :
    7 < b.toNat ∧ e = .outOfBounds .reg b.toNat := by
  rcases regByte_or_gt b with ⟨i, rfl⟩ | hb
  · rw [regOperand_regByte] at h; cases h
  · rw [regOperand_of_gt hb] at h; cases h; exact ⟨hb, rfl⟩

/-! ### push -/

/-- A push that passes its three checks. -/
theorem push_of {v a : Nat} (hv : v ≤ 255) (ha : pushAddr c s = .ok a) (hle : a ≤ 255) :
    push c v s = .ok { setSp a s with mem := memSet a (BitVec.ofNat 8 v) s.mem } := by
  simp [push, hv, ha, hle, memWrite_of_le hle hv]

theorem push_value {v : Nat} (hv : 255 < v) : push c v s = .error (.outOfBounds .val v) := by
  simp [push, require_false (Nat.not_le.mpr hv)]

theorem push_stack {v : Nat} {e : FatalError} (hv : v ≤ 255) (ha : pushAddr c s = .error e) :
    push c v s = .error e := by
  simp [push, hv, ha]

theorem push_address {v a : Nat} (hv : v ≤ 255) (ha : pushAddr c s = .ok a) (hgt : 255 < a) :
    push c v s = .error (.outOfBounds .mem a) := by
  simp [push, hv, ha, require_false (Nat.not_le.mpr hgt)]

/-- All a push can do when it succeeds. -/
theorem push_ok {v : Nat} (h : push c v s = .ok t) : ∃ a, pushAddr c s = .ok a ∧ a ≤ 255 ∧ v ≤ 255 ∧
    t = { setSp a s with mem := memSet a (BitVec.ofNat 8 v) s.mem } := by
  obtain ⟨_, hv, h⟩ := bind_eq_ok h
  obtain ⟨a, ha, h⟩ := bind_eq_ok h
  obtain ⟨_, hle, h⟩ := bind_eq_ok h
  exact ⟨a, ha, require_eq_ok hle, require_eq_ok hv, (memWrite_ok h).2.2⟩

/-- All a push can raise, in the order of its checks. -/
theorem push_error {v : Nat} {e : FatalError} (h : push c v s = .error e) :
    (255 < v ∧ e = .outOfBounds .val v) ∨ (c.stackPolicy = .fault ∧ sp s = 0 ∧ e = .stackOverflow 0) ∨
      ∃ a, pushAddr c s = .ok a ∧ 255 < a ∧ e = .outOfBounds .mem a := by
  by_cases hv : v ≤ 255
  · cases ha : pushAddr c s with
    | error e' =>
      rw [push_stack hv ha] at h
      cases h
      unfold pushAddr at ha
      split at ha
      · split at ha
        · cases ha; exact .inr (.inl ⟨by assumption, by assumption, rfl⟩)
        · cases ha
      · cases ha
    | ok a =>
      by_cases hle : a ≤ 255
      · rw [push_of hv ha hle] at h; cases h
      · rw [push_address hv ha (by omega)] at h
        cases h
        exact .inr (.inr ⟨a, rfl, by omega, rfl⟩)
  · rw [push_value (by omega)] at h
    cases h
    exact .inl ⟨by omega, rfl⟩

theorem pushAddr_fault_zero (hc : c.stackPolicy = .fault) (h : sp s = 0) :
    pushAddr c s = .error (.stackOverflow 0) := by
  simp [pushAddr, hc, h]

theorem pushAddr_fault (hc : c.stackPolicy = .fault) (h : sp s ≠ 0) : pushAddr c s = .ok (sp s - 1) := by
  simp [pushAddr, hc, h]

theorem pushAddr_wrap (hc : c.stackPolicy = .wrap) : pushAddr c s = .ok ((sp s + 255) % 256) := by
  simp [pushAddr, hc]

/-! ### pop -/

/-- A pop that passes its checks. -/
theorem pop_of {p : Nat} (hp : popSp c s = .ok p) (hle : sp s ≤ 255) :
    pop c s = .ok (cell (sp s) s, setSp p s) := by
  simp [pop, hp, memRead_of_le hle]

theorem pop_stack {e : FatalError} (hp : popSp c s = .error e) : pop c s = .error e := by
  simp [pop, hp]

/-- All a pop can do when it succeeds. -/
theorem pop_ok {r : Byte × State} (h : pop c s = .ok r) :
    ∃ p, popSp c s = .ok p ∧ sp s ≤ 255 ∧ r = (cell (sp s) s, setSp p s) := by
  obtain ⟨p, hp, h⟩ := bind_eq_ok h
  obtain ⟨v, hv, h⟩ := bind_eq_ok h
  by_cases hle : sp s ≤ 255
  · rw [memRead_of_le hle] at hv; cases hv; cases h; exact ⟨p, hp, hle, rfl⟩
  · rw [memRead_of_gt (Nat.lt_of_not_le hle)] at hv; cases hv

/-- All a pop can raise. -/
theorem pop_error {e : FatalError} (h : pop c s = .error e) :
    (c.stackPolicy = .fault ∧ spMaxPop c < sp s ∧ e = .stackUnderflow (sp s)) ∨
      (255 < sp s ∧ e = .outOfBounds .mem (sp s)) := by
  rcases bind_eq_error h with hp | ⟨p, hp, h⟩
  · unfold popSp at hp
    split at hp
    · split at hp
      · cases hp; exact .inl ⟨by assumption, by assumption, rfl⟩
      · cases hp
    · cases hp
  · rcases bind_eq_error h with hv | ⟨v, hv, h⟩
    · by_cases hle : sp s ≤ 255
      · rw [memRead_of_le hle] at hv; cases hv
      · rw [memRead_of_gt (by omega)] at hv; cases hv; exact .inr ⟨by omega, rfl⟩
    · cases h

theorem popSp_fault_gt (hc : c.stackPolicy = .fault) (h : spMaxPop c < sp s) :
    popSp c s = .error (.stackUnderflow (sp s)) := by
  simp [popSp, hc, h]

theorem popSp_fault (hc : c.stackPolicy = .fault) (h : sp s ≤ spMaxPop c) : popSp c s = .ok (sp s + 1) := by
  simp [popSp, hc, Nat.not_lt.mpr h]

theorem popSp_wrap (hc : c.stackPolicy = .wrap) : popSp c s = .ok ((sp s + 1) % 256) := by
  simp [popSp, hc]

/-! ### The arithmetic/compare unit -/

/-- The unit on two registers (R80). -/
theorem alu_regs (c : Config) (op : AluOp) (a b : Fin 8) (s : State) :
    alu c op (regByte a) (regByte b) s =
      match op with
      | .add => .ok (writeReg a (normResult c (readReg a s + readReg b s)) s)
      | .mul => .ok (writeReg a (normResult c (readReg a s * readReg b s)) s)
      | .cmp => .ok { s with fl := compareFlags (readReg a s) (readReg b s) }
      | .other selector => .error (.unsupportedALUOperation selector) := by
  cases op <;> simp [alu]

theorem alu_bad_a (c : Config) (op : AluOp) {x : Byte} (y : Byte) (hx : 7 < x.toNat) (s : State) :
    alu c op x y s = .error (.outOfBounds .reg x.toNat) := by
  simp [alu, regOperand_of_gt hx]

theorem alu_bad_b (c : Config) (op : AluOp) (a : Fin 8) {y : Byte} (hy : 7 < y.toNat) (s : State) :
    alu c op (regByte a) y s = .error (.outOfBounds .reg y.toNat) := by
  simp [alu, regOperand_of_gt hy]

theorem normResult_wrap8 (hc : c.regMode = .wrap8) (v : Nat) : normResult c v = v % 256 := by
  simp [normResult, hc, trunc8]

theorem normResult_wide (hc : c.regMode = .wide) (v : Nat) : normResult c v = v := by
  simp [normResult, hc]

end Sys2Proof.Machine
end

