-- ==== Sys2Proof/Laws/Variants.lean ====
section
/-! SUPPORT. The machine of this hardware is the configurable machine at `hardware`. -/

namespace Sys2Proof.Machine

theorem exec_eq_execIn (i : Instr) (s : State) : exec i s = execIn hardware i s := by cases i <;> rfl

theorem step_eq_stepIn (s : State) : step s = stepIn hardware s := by
  cases hr : s.run <;> cases hf : fetch hardware s <;> simp [step, stepIn, hr, hf, exec_eq_execIn]

end Sys2Proof.Machine
end

