-- ==== Sys2Proof/Laws/Exec.lean ====
section
/-! SUPPORT. What executing an instruction can do, once for every configuration: its effect, or one fatal error raised in an
otherwise unchanged state. Frames and invariants follow from it without unfolding a meaning. -/

namespace Sys2Proof.Machine

variable {c : Config} {s t : State}

/-- The effect of each instruction when it raises nothing. -/
def Effect (c : Config) (s t : State) : Instr → Prop
  | .hlt => t = { s with run := .halted }
  | .ldi x imm => ∃ r, x = regByte r ∧ t = advance 3 (writeReg r imm.toNat s)
  | .prn x => ∃ r, x = regByte r ∧ t = advance 2 (emit (readReg r s) s)
  | .add x y => ∃ a b, x = regByte a ∧ y = regByte b ∧
      t = advance 3 (writeReg a (normResult c (readReg a s + readReg b s)) s)
  | .mul x y => ∃ a b, x = regByte a ∧ y = regByte b ∧
      t = advance 3 (writeReg a (normResult c (readReg a s * readReg b s)) s)
  | .cmp x y => ∃ a b, x = regByte a ∧ y = regByte b ∧
      t = advance 3 { s with fl := compareFlags (readReg a s) (readReg b s) }
  | .push x => ∃ r a, x = regByte r ∧ pushAddr c s = .ok a ∧ a ≤ 255 ∧ readReg r s ≤ 255 ∧
      t = advance 2 { setSp a s with mem := memSet a (BitVec.ofNat 8 (readReg r s)) s.mem }
  | .pop x => ∃ r p, x = regByte r ∧ popSp c s = .ok p ∧ sp s ≤ 255 ∧
      t = advance 2 (writeReg r (cell (sp s) s).toNat (setSp p s))
  | .call x => ∃ r a, x = regByte r ∧ pushAddr c s = .ok a ∧ a ≤ 255 ∧ s.pc + 2 ≤ 255 ∧
      t = jump (readReg r (setSp a s)) { setSp a s with mem := memSet a (BitVec.ofNat 8 (s.pc + 2)) s.mem }
  | .ret => ∃ p, popSp c s = .ok p ∧ sp s ≤ 255 ∧ t = jump (cell (sp s) s).toNat (setSp p s)
  | .jmp x => ∃ r, x = regByte r ∧ t = jump (readReg r s) s
  | .jeq x => ∃ r, x = regByte r ∧ t = if equalBit s.fl then jump (readReg r s) s else advance 2 s
  | .jne x => ∃ r, x = regByte r ∧ t = if equalBit s.fl then advance 2 s else jump (readReg r s) s

/-- The register operand bytes of each instruction. -/
def regOperands : Instr → List Byte
  | .hlt => []
  | .ldi r _ => [r]
  | .prn r => [r]
  | .add a b => [a, b]
  | .mul a b => [a, b]
  | .cmp a b => [a, b]
  | .push r => [r]
  | .pop r => [r]
  | .call r => [r]
  | .ret => []
  | .jmp r => [r]
  | .jeq r => [r]
  | .jne r => [r]

/-- The fatal errors executing an instruction can raise: a register index above 7; CALL's return address; what `push` and
`pop` raise. -/
def CanRaise (c : Config) (s : State) (i : Instr) (e : FatalError) : Prop :=
  (∃ x ∈ regOperands i, 7 < x.toNat ∧ e = .outOfBounds .reg x.toNat) ∨
  (∃ x, i = .call x ∧ 255 < s.pc + 2 ∧ e = .outOfBounds .mem (s.pc + 2)) ∨
  (∃ r, i = .push (regByte r) ∧ push c (readReg r s) s = .error e) ∨
  (∃ x, i = .call x ∧ s.pc + 2 ≤ 255 ∧ push c (s.pc + 2) s = .error e) ∨
  ((i = .ret ∨ ∃ x, i = .pop x) ∧ pop c s = .error e)

/-- A handler that checks one register operand and then goes on. -/
theorem one_operand {x : Byte} {f : Fin 8 → Except FatalError State} (P : State → Prop) (Q : FatalError → Prop)
    (h : settle s (regOperand x >>= f) = .next t)
    (hbad : 7 < x.toNat → Q (.outOfBounds .reg x.toNat))
    (hok : ∀ r u, x = regByte r → f r = .ok u → P u) (herr : ∀ r e, x = regByte r → f r = .error e → Q e) :
    P t ∨ ∃ e, Q e ∧ t = raise e s := by
  rcases settle_next h with h | ⟨e, he, rfl⟩
  · obtain ⟨r, hr, h⟩ := bind_eq_ok h
    exact .inl (hok r t (regOperand_eq_ok hr) h)
  · rcases bind_eq_error he with hr | ⟨r, hr, h⟩
    · obtain ⟨hx, rfl⟩ := regOperand_eq_error hr
      exact .inr ⟨_, hbad hx, rfl⟩
    · exact .inr ⟨e, herr r e (regOperand_eq_ok hr) h, rfl⟩

/-- A handler that drives the unit and then advances by three. -/
theorem alu_settled {op : AluOp} {x y : Byte} (P : State → Prop) (Q : FatalError → Prop)
    (h : settle s (alu c op x y s >>= fun u => .ok (advance 3 u)) = .next t)
    (hop : ∀ n, op ≠ .other n)
    (hx : 7 < x.toNat → Q (.outOfBounds .reg x.toNat)) (hy : 7 < y.toNat → Q (.outOfBounds .reg y.toNat))
    (hok : ∀ a b u, x = regByte a → y = regByte b → alu c op (regByte a) (regByte b) s = .ok u → P (advance 3 u)) :
    P t ∨ ∃ e, Q e ∧ t = raise e s := by
  rcases regByte_or_gt x with ⟨a, rfl⟩ | hx'
  · rcases regByte_or_gt y with ⟨b, rfl⟩ | hy'
    · cases hu : alu c op (regByte a) (regByte b) s with
      | ok u =>
        rw [hu] at h
        cases h
        exact .inl (hok a b u rfl rfl hu)
      | error e =>
        rw [alu_regs] at hu
        cases op with
        | other n => exact absurd rfl (hop n)
        | _ => cases hu
    · rw [alu_bad_b c op a hy' s] at h
      cases h
      exact .inr ⟨_, hy hy', rfl⟩
  · rw [alu_bad_a c op y hx' s] at h
    cases h
    exact .inr ⟨_, hx hx', rfl⟩

/-- **All an instruction can do**, under every configuration: its effect, or one of its errors raised in `s`. -/
theorem execIn_next {i : Instr} (h : execIn c i s = .next t) :
    Effect c s t i ∨ ∃ e, CanRaise c s i e ∧ t = raise e s := by
  cases i with
  | hlt => cases h; exact .inl rfl
  | ldi x imm =>
    exact one_operand (Effect c s · (.ldi x imm)) _ h (fun hx => .inl ⟨x, by simp [regOperands], hx, rfl⟩)
      (fun r u hr hu => by cases hu; exact ⟨r, hr, rfl⟩) (fun _ _ _ he => by cases he)
  | prn x =>
    exact one_operand (Effect c s · (.prn x)) _ h (fun hx => .inl ⟨x, by simp [regOperands], hx, rfl⟩)
      (fun r u hr hu => by cases hu; exact ⟨r, hr, rfl⟩) (fun _ _ _ he => by cases he)
  | add x y =>
    exact alu_settled (Effect c s · (.add x y)) _ h (by simp)
      (fun hx => .inl ⟨x, by simp [regOperands], hx, rfl⟩) (fun hy => .inl ⟨y, by simp [regOperands], hy, rfl⟩)
      (fun a b u ha hb hu => by rw [alu_regs] at hu; cases hu; exact ⟨a, b, ha, hb, rfl⟩)
  | mul x y =>
    exact alu_settled (Effect c s · (.mul x y)) _ h (by simp)
      (fun hx => .inl ⟨x, by simp [regOperands], hx, rfl⟩) (fun hy => .inl ⟨y, by simp [regOperands], hy, rfl⟩)
      (fun a b u ha hb hu => by rw [alu_regs] at hu; cases hu; exact ⟨a, b, ha, hb, rfl⟩)
  | cmp x y =>
    exact alu_settled (Effect c s · (.cmp x y)) _ h (by simp)
      (fun hx => .inl ⟨x, by simp [regOperands], hx, rfl⟩) (fun hy => .inl ⟨y, by simp [regOperands], hy, rfl⟩)
      (fun a b u ha hb hu => by rw [alu_regs] at hu; cases hu; exact ⟨a, b, ha, hb, rfl⟩)
  | push x =>
    refine one_operand (Effect c s · (.push x)) _ h (fun hx => .inl ⟨x, by simp [regOperands], hx, rfl⟩)
      (fun r u hr hu => ?_) (fun r e hr he => ?_)
    · obtain ⟨v, hv, hu⟩ := bind_eq_ok hu
      cases hu
      obtain ⟨a, ha, hle, hval, rfl⟩ := push_ok hv
      exact ⟨r, a, hr, ha, hle, hval, rfl⟩
    · rcases bind_eq_error he with he | ⟨_, _, he⟩
      · subst hr; exact .inr (.inr (.inl ⟨r, rfl, he⟩))
      · cases he
  | pop x =>
    refine one_operand (Effect c s · (.pop x)) _ h (fun hx => .inl ⟨x, by simp [regOperands], hx, rfl⟩)
      (fun r u hr hu => ?_) (fun r e hr he => ?_)
    · obtain ⟨v, hv, hu⟩ := bind_eq_ok hu
      obtain ⟨p, hp, hle, rfl⟩ := pop_ok hv
      cases hu
      exact ⟨r, p, hr, hp, hle, rfl⟩
    · rcases bind_eq_error he with he | ⟨_, _, he⟩
      · exact .inr (.inr (.inr (.inr ⟨.inr ⟨x, rfl⟩, he⟩)))
      · cases he
  | call x =>
    refine one_operand (Effect c s · (.call x)) _ h (fun hx => .inl ⟨x, by simp [regOperands], hx, rfl⟩)
      (fun r u hr hu => ?_) (fun r e hr he => ?_)
    · obtain ⟨_, hra, hu⟩ := bind_eq_ok hu
      obtain ⟨v, hv, hu⟩ := bind_eq_ok hu
      cases hu
      obtain ⟨a, ha, hle, _, rfl⟩ := push_ok hv
      exact ⟨r, a, hr, ha, hle, require_eq_ok hra, rfl⟩
    · rcases bind_eq_error he with he | ⟨_, hra, he⟩
      · obtain ⟨hra, rfl⟩ := require_eq_error he
        exact .inr (.inl ⟨x, rfl, by omega, rfl⟩)
      · rcases bind_eq_error he with he | ⟨_, _, he⟩
        · exact .inr (.inr (.inr (.inl ⟨x, rfl, require_eq_ok hra, he⟩)))
        · cases he
  | ret =>
    rcases settle_next h with h | ⟨e, he, rfl⟩
    · obtain ⟨v, hv, hu⟩ := bind_eq_ok h
      obtain ⟨p, hp, hle, rfl⟩ := pop_ok hv
      cases hu
      exact .inl ⟨p, hp, hle, rfl⟩
    · rcases bind_eq_error he with he | ⟨_, _, he⟩
      · exact .inr ⟨e, .inr (.inr (.inr (.inr ⟨.inl rfl, he⟩))), rfl⟩
      · cases he
  | jmp x =>
    exact one_operand (Effect c s · (.jmp x)) _ h (fun hx => .inl ⟨x, by simp [regOperands], hx, rfl⟩)
      (fun r u hr hu => by cases hu; exact ⟨r, hr, rfl⟩) (fun _ _ _ he => by cases he)
  | jeq x =>
    exact one_operand (Effect c s · (.jeq x)) _ h (fun hx => .inl ⟨x, by simp [regOperands], hx, rfl⟩)
      (fun r u hr hu => by cases hu; exact ⟨r, hr, rfl⟩) (fun _ _ _ he => by cases he)
  | jne x =>
    exact one_operand (Effect c s · (.jne x)) _ h (fun hx => .inl ⟨x, by simp [regOperands], hx, rfl⟩)
      (fun r u hr hu => by cases hu; exact ⟨r, hr, rfl⟩) (fun _ _ _ he => by cases he)

/-- The same of this hardware. -/
theorem exec_next {i : Instr} (h : exec i s = .next t) :
    Effect hardware s t i ∨ ∃ e, CanRaise hardware s i e ∧ t = raise e s :=
  execIn_next (exec_eq_execIn i s ▸ h)

/-- All a step can do: it is taken from `RUNNING`, and either its fetch raises an error or the fetched instruction runs. -/
theorem stepIn_next (h : stepIn c s = .next t) :
    s.run = .running ∧ ((∃ i, fetch c s = .ok i ∧ execIn c i s = .next t) ∨
      ∃ e, fetch c s = .error e ∧ t = raise e s) := by
  unfold stepIn at h
  split at h
  · next hr =>
    refine ⟨hr, ?_⟩
    split at h
    · next i hi => exact .inl ⟨i, hi, h⟩
    · next e he => cases h; exact .inr ⟨e, he, rfl⟩
  · cases h
  · cases h

end Sys2Proof.Machine
end

