-- ==== Sys2Proof/Laws/Effects.lean ====
section
/-! SUPPORT. Field by field, what the effect of an instruction that raises nothing can be: the run state, the output, memory,
the flags. Frames and invariants over all instructions follow from these without another case split. -/

namespace Sys2Proof.Machine

variable {c : Config} {s t : State} {i : Instr}

/-- An effect keeps `run`, or is HLT's. -/
theorem effect_run (h : Effect c s t i) :
    t.run = s.run ∨ (i = .hlt ∧ t = { s with run := .halted }) := by
  cases i <;> simp only [Effect] at h
  case hlt => exact .inr ⟨rfl, h⟩
  all_goals left
  case jeq => obtain ⟨r, _, rfl⟩ := h; split <;> rfl
  case jne => obtain ⟨r, _, rfl⟩ := h; split <;> rfl
  case ldi => obtain ⟨r, _, rfl⟩ := h; rfl
  case prn => obtain ⟨r, _, rfl⟩ := h; rfl
  case add => obtain ⟨a, b, _, _, rfl⟩ := h; rfl
  case mul => obtain ⟨a, b, _, _, rfl⟩ := h; rfl
  case cmp => obtain ⟨a, b, _, _, rfl⟩ := h; rfl
  case push => obtain ⟨r, a, _, _, _, _, rfl⟩ := h; rfl
  case pop => obtain ⟨r, p, _, _, _, rfl⟩ := h; rfl
  case call => obtain ⟨r, a, _, _, _, _, rfl⟩ := h; rfl
  case ret => obtain ⟨p, _, _, rfl⟩ := h; rfl
  case jmp => obtain ⟨r, _, rfl⟩ := h; rfl

/-- An effect keeps `out`, or is PRN's. -/
theorem effect_out (h : Effect c s t i) :
    t.out = s.out ∨ ∃ r, i = .prn (regByte r) ∧ t.out = s.out ++ [readReg r s] := by
  cases i <;> simp only [Effect] at h
  case prn => obtain ⟨r, rfl, rfl⟩ := h; exact .inr ⟨r, rfl, rfl⟩
  all_goals left
  case hlt => subst h; rfl
  case jeq => obtain ⟨r, _, rfl⟩ := h; split <;> rfl
  case jne => obtain ⟨r, _, rfl⟩ := h; split <;> rfl
  case ldi => obtain ⟨r, _, rfl⟩ := h; rfl
  case add => obtain ⟨a, b, _, _, rfl⟩ := h; rfl
  case mul => obtain ⟨a, b, _, _, rfl⟩ := h; rfl
  case cmp => obtain ⟨a, b, _, _, rfl⟩ := h; rfl
  case push => obtain ⟨r, a, _, _, _, _, rfl⟩ := h; rfl
  case pop => obtain ⟨r, p, _, _, _, rfl⟩ := h; rfl
  case call => obtain ⟨r, a, _, _, _, _, rfl⟩ := h; rfl
  case ret => obtain ⟨p, _, _, rfl⟩ := h; rfl
  case jmp => obtain ⟨r, _, rfl⟩ := h; rfl

/-- An effect keeps memory, or writes the one cell a push writes. -/
theorem effect_mem (h : Effect c s t i) :
    t.mem = s.mem ∨ ∃ a v, pushAddr c s = .ok a ∧ a ≤ 255 ∧ t.mem = memSet a v s.mem ∧
      ((∃ r, i = .push r) ∨ ∃ r, i = .call r) := by
  cases i <;> simp only [Effect] at h
  case push => obtain ⟨r, a, _, h1, h2, _, rfl⟩ := h; exact .inr ⟨a, _, h1, h2, rfl, .inl ⟨_, rfl⟩⟩
  case call => obtain ⟨r, a, _, h1, h2, _, rfl⟩ := h; exact .inr ⟨a, _, h1, h2, rfl, .inr ⟨_, rfl⟩⟩
  all_goals left
  case hlt => subst h; rfl
  case jeq => obtain ⟨r, _, rfl⟩ := h; split <;> rfl
  case jne => obtain ⟨r, _, rfl⟩ := h; split <;> rfl
  case ldi => obtain ⟨r, _, rfl⟩ := h; rfl
  case prn => obtain ⟨r, _, rfl⟩ := h; rfl
  case add => obtain ⟨a, b, _, _, rfl⟩ := h; rfl
  case mul => obtain ⟨a, b, _, _, rfl⟩ := h; rfl
  case cmp => obtain ⟨a, b, _, _, rfl⟩ := h; rfl
  case pop => obtain ⟨r, p, _, _, _, rfl⟩ := h; rfl
  case ret => obtain ⟨p, _, _, rfl⟩ := h; rfl
  case jmp => obtain ⟨r, _, rfl⟩ := h; rfl

/-- An effect keeps `FL`, or is CMP's. -/
theorem effect_fl (h : Effect c s t i) :
    t.fl = s.fl ∨ ((∃ a b, i = .cmp a b) ∧ ∃ u v, t.fl = compareFlags u v) := by
  cases i <;> simp only [Effect] at h
  case cmp => obtain ⟨a, b, _, _, rfl⟩ := h; exact .inr ⟨⟨_, _, rfl⟩, _, _, rfl⟩
  all_goals left
  case push => obtain ⟨r, a, _, h1, h2, _, rfl⟩ := h; rfl
  case call => obtain ⟨r, a, _, h1, h2, _, rfl⟩ := h; rfl
  case hlt => subst h; rfl
  case jeq => obtain ⟨r, _, rfl⟩ := h; split <;> rfl
  case jne => obtain ⟨r, _, rfl⟩ := h; split <;> rfl
  case ldi => obtain ⟨r, _, rfl⟩ := h; rfl
  case prn => obtain ⟨r, _, rfl⟩ := h; rfl
  case add => obtain ⟨a, b, _, _, rfl⟩ := h; rfl
  case mul => obtain ⟨a, b, _, _, rfl⟩ := h; rfl
  case pop => obtain ⟨r, p, _, _, _, rfl⟩ := h; rfl
  case ret => obtain ⟨p, _, _, rfl⟩ := h; rfl
  case jmp => obtain ⟨r, _, rfl⟩ := h; rfl

end Sys2Proof.Machine
end

