-- ==== Sys2Proof/Laws/Fetch.lean ====
section
/-! SUPPORT. What a fetch can do (spec/40_loop_dispatch_hlt.md R61, R62): the instruction of the table entry at `pc`, all of
whose bytes lie in memory, or one of three errors. -/

namespace Sys2Proof.Machine

variable {c : Config} {s : State}

theorem lookup_some {b : Byte} {op : Opcode} (h : dispatchTable c b = some op) : lookup c b = .ok op := by
  simp [lookup, h]

theorem lookup_none {b : Byte} (h : dispatchTable c b = none) : lookup c b = .error (.illegalOpcode b) := by
  simp [lookup, h]

theorem lookup_eq_ok {b : Byte} {op : Opcode} (h : lookup c b = .ok op) : dispatchTable c b = some op := by
  unfold lookup at h; split at h
  · cases h; assumption
  · cases h

theorem lookup_eq_error {b : Byte} {e : FatalError} (h : lookup c b = .error e) :
    dispatchTable c b = none ∧ e = .illegalOpcode b := by
  unfold lookup at h; split at h
  · cases h
  · cases h; exact ⟨by assumption, rfl⟩

theorem memRead_eq_ok {a : Nat} {v : Byte} (h : memRead a s = .ok v) : a ≤ 255 ∧ v = cell a s := by
  unfold memRead at h; split at h
  · cases h
  · cases h; exact ⟨by omega, rfl⟩

theorem memRead_eq_error {a : Nat} {e : FatalError} (h : memRead a s = .error e) :
    255 < a ∧ e = .outOfBounds .mem a := by
  unfold memRead at h; split at h
  · cases h; exact ⟨by assumption, rfl⟩
  · cases h

theorem operandRead_of {p : Bool} {a : Nat} (h : p = true → a ≤ 255) :
    operandRead p a s = .ok (if p then cell a s else 0) := by
  cases p
  · rfl
  · simp [operandRead, memRead_of_le (h rfl)]

theorem operandRead_eq_ok {p : Bool} {a : Nat} {v : Byte} (h : operandRead p a s = .ok v) : p = true → a ≤ 255 := by
  rintro rfl
  exact (memRead_eq_ok h).1

theorem operandRead_eq_error {p : Bool} {a : Nat} {e : FatalError} (h : operandRead p a s = .error e) :
    p = true ∧ 255 < a ∧ e = .outOfBounds .mem a := by
  cases p
  · cases h
  · exact ⟨rfl, memRead_eq_error h⟩

/-- `assemble` looks only at the operand bytes its entry consumes. -/
theorem assemble_consumed (op : Opcode) (a b : Byte) :
    assemble op (if 1 ≤ op.format.ops then a else 0) (if 2 ≤ op.format.ops then b else 0) = assemble op a b := by
  cases op <;> rfl

theorem ops_le_two (op : Opcode) : op.format.ops ≤ 2 := by cases op <;> decide

/-- Under `SUPPRESS`, an instruction whose bytes lie in memory is fetched. -/
theorem fetch_suppress (hc : c.overfetch = .suppress) {op : Opcode} (hd : dispatchTable c (cell s.pc s) = some op)
    (hle : s.pc + op.format.ops ≤ 255) : fetch c s = .ok (assemble op (cell (s.pc + 1) s) (cell (s.pc + 2) s)) := by
  have hA : decide (1 ≤ op.format.ops) = true → s.pc + 1 ≤ 255 := by simp; omega
  have hB : decide (2 ≤ op.format.ops) = true → s.pc + 2 ≤ 255 := by simp; omega
  simp only [fetch, hc, memRead_of_le (show s.pc ≤ 255 by omega), bind_ok, lookup_some hd, operandRead_of hA,
    operandRead_of hB, decide_eq_true_eq, assemble_consumed]

/-- Under `STRICT3`, any instruction is fetched whose address is at most 253. -/
theorem fetch_strict3 (hc : c.overfetch = .strict3) {op : Opcode} (hd : dispatchTable c (cell s.pc s) = some op)
    (hle : s.pc + 2 ≤ 255) : fetch c s = .ok (assemble op (cell (s.pc + 1) s) (cell (s.pc + 2) s)) := by
  simp [fetch, hc, memRead_of_le (show s.pc ≤ 255 by omega), memRead_of_le (show s.pc + 1 ≤ 255 by omega),
    memRead_of_le hle, lookup_some hd]

/-- All a fetch can give when it succeeds. -/
theorem fetch_eq_ok {i : Instr} (h : fetch c s = .ok i) : ∃ op, dispatchTable c (cell s.pc s) = some op ∧
    s.pc + op.format.ops ≤ 255 ∧ i = assemble op (cell (s.pc + 1) s) (cell (s.pc + 2) s) := by
  cases hc : c.overfetch with
  | suppress =>
    simp only [fetch, hc] at h
    obtain ⟨ir, hir, h1⟩ := bind_eq_ok h
    obtain ⟨op, hop, h2⟩ := bind_eq_ok h1
    obtain ⟨a, ha, h3⟩ := bind_eq_ok h2
    obtain ⟨b, hb, h4⟩ := bind_eq_ok h3
    obtain ⟨hpc, rfl⟩ := memRead_eq_ok hir
    have hA := operandRead_eq_ok ha
    have hB := operandRead_eq_ok hb
    have hd := lookup_eq_ok hop
    have := ops_le_two op
    simp only [decide_eq_true_eq] at hA hB
    have hle : s.pc + op.format.ops ≤ 255 := by
      rcases (by omega : op.format.ops = 0 ∨ op.format.ops = 1 ∨ op.format.ops = 2) with e | e | e
      · omega
      · have := hA (by omega); omega
      · have := hB (by omega); omega
    refine ⟨op, hd, hle, ?_⟩
    have hf := fetch_suppress hc hd hle
    simp only [fetch, hc, memRead_of_le hpc, bind_ok, hop, ha, hb] at hf
    rw [← Except.ok.inj h4]
    exact Except.ok.inj hf
  | strict3 =>
    simp only [fetch, hc] at h
    obtain ⟨ir, hir, h1⟩ := bind_eq_ok h
    obtain ⟨a, ha, h2⟩ := bind_eq_ok h1
    obtain ⟨b, hb, h3⟩ := bind_eq_ok h2
    obtain ⟨op, hop, h4⟩ := bind_eq_ok h3
    obtain ⟨-, rfl⟩ := memRead_eq_ok hir
    obtain ⟨-, rfl⟩ := memRead_eq_ok ha
    obtain ⟨hle, rfl⟩ := memRead_eq_ok hb
    have := ops_le_two op
    exact ⟨op, lookup_eq_ok hop, by omega, (Except.ok.inj h4).symm⟩

/-- All a fetch can raise. -/
theorem fetch_eq_error {e : FatalError} (h : fetch c s = .error e) :
    (255 < s.pc ∧ e = .outOfBounds .mem s.pc) ∨
    (s.pc ≤ 255 ∧ dispatchTable c (cell s.pc s) = none ∧ e = .illegalOpcode (cell s.pc s)) ∨
    (s.pc ≤ 255 ∧ 255 < s.pc + 2 ∧ e = .outOfBounds .mem 256) := by
  by_cases hpc : s.pc ≤ 255
  · right
    cases hc : c.overfetch with
    | suppress =>
      simp only [fetch, hc, memRead_of_le hpc, bind_ok] at h
      rcases bind_eq_error h with h | ⟨op, hop, h⟩
      · exact .inl ⟨hpc, lookup_eq_error h⟩
      · right
        rcases bind_eq_error h with h | ⟨a, ha, h⟩
        · obtain ⟨-, hgt, rfl⟩ := operandRead_eq_error h
          exact ⟨hpc, by omega, by rw [show s.pc + 1 = 256 by omega]⟩
        · rcases bind_eq_error h with h | ⟨b, hb, h⟩
          · obtain ⟨hp, hgt, rfl⟩ := operandRead_eq_error h
            have hA := operandRead_eq_ok ha
            simp only [decide_eq_true_eq] at hA hp
            have := hA (by omega)
            exact ⟨hpc, hgt, by rw [show s.pc + 2 = 256 by omega]⟩
          · cases h
    | strict3 =>
      simp only [fetch, hc, memRead_of_le hpc, bind_ok] at h
      rcases bind_eq_error h with h | ⟨a, ha, h⟩
      · obtain ⟨hgt, rfl⟩ := memRead_eq_error h
        exact .inr ⟨hpc, by omega, by rw [show s.pc + 1 = 256 by omega]⟩
      · have := (memRead_eq_ok ha).1
        rcases bind_eq_error h with h | ⟨b, hb, h⟩
        · obtain ⟨hgt, rfl⟩ := memRead_eq_error h
          exact .inr ⟨hpc, hgt, by rw [show s.pc + 2 = 256 by omega]⟩
        · rcases bind_eq_error h with h | ⟨op, hop, h⟩
          · exact .inl ⟨hpc, lookup_eq_error h⟩
          · cases h
  · left
    have hgt : 255 < s.pc := by omega
    cases hc : c.overfetch <;> simp only [fetch, hc, memRead_of_gt hgt, bind_error] at h <;> cases h <;>
      exact ⟨hgt, rfl⟩

end Sys2Proof.Machine
end

