-- ==== Sys2Proof/Laws/PerInstr.lean ====
section
/-! SUPPORT. The statements made instruction by instruction, about the instruction as syntax. -/

namespace Sys2Proof.Laws.EncodingShape

/-- The encoding of an instruction begins with its opcode byte and has the length of its format
(spec/30_encoding.md R46, R47). -/
def Statement (i : Instr) : Prop :=
  (encode hardware i).head? = some (opcodeByte hardware i.opcode) ∧
    (encode hardware i).length = i.opcode.format.ops + 1

theorem hlt : Statement .hlt := ⟨rfl, rfl⟩
theorem ldi (r imm : Byte) : Statement (.ldi r imm) := ⟨rfl, rfl⟩
theorem prn (r : Byte) : Statement (.prn r) := ⟨rfl, rfl⟩
theorem add (a b : Byte) : Statement (.add a b) := ⟨rfl, rfl⟩
theorem mul (a b : Byte) : Statement (.mul a b) := ⟨rfl, rfl⟩
theorem cmp (a b : Byte) : Statement (.cmp a b) := ⟨rfl, rfl⟩
theorem push (r : Byte) : Statement (.push r) := ⟨rfl, rfl⟩
theorem pop (r : Byte) : Statement (.pop r) := ⟨rfl, rfl⟩
theorem call (r : Byte) : Statement (.call r) := ⟨rfl, rfl⟩
theorem ret : Statement .ret := ⟨rfl, rfl⟩
theorem jmp (r : Byte) : Statement (.jmp r) := ⟨rfl, rfl⟩
theorem jeq (r : Byte) : Statement (.jeq r) := ⟨rfl, rfl⟩
theorem jne (r : Byte) : Statement (.jne r) := ⟨rfl, rfl⟩

end Sys2Proof.Laws.EncodingShape
end

