-- ==== Sys2Proof/Tests/Slice0.lean ====
section
/-! SUPPORT. The model's own tests: the smoke test of WellFormed, words and steps whose results are the spec's own examples
(spec/95_test_vectors.md, named in each comment), and a witness for the hypotheses of each statement. -/

namespace Sys2Proof.Tests
open Sys2Proof Sys2Proof.Machine

/-! ### Helpers -/

/-- The next state of an outcome. -/
def after : Host.Outcome State Fault Refusal → Option State
  | .next t => some t
  | .fault _ => none
  | .refused _ => none

/-- A running state with `bytes` at `pc`, the given registers and flags. -/
def st (bytes : List Byte) (pc : Nat) (x : Vector Nat 8) (fl : BitVec 3 := 0) : State where
  mem := memSetList pc bytes []
  x := x
  pc := pc
  fl := fl
  run := .running
  out := []

/-- The same with one more cell. -/
def stM (a : Nat) (v : Byte) (s : State) : State := { s with mem := memSet a v s.mem }

def zeros : Vector Nat 8 := #v[0, 0, 0, 0, 0, 0, 0, 0]

/-- Registers with the given R0, R1 and SP. -/
def regs (r0 r1 sp : Nat) : Vector Nat 8 := #v[r0, r1, 0, 0, 0, 0, 0, sp]

def wideHw : Config := { hardware with regMode := .wide }
def wrapHw : Config := { hardware with stackPolicy := .wrap }
def strictHw : Config := { hardware with overfetch := .strict3 }

/-! ### WellFormed: one ill-formed term for each check, and the boundary it accepts -/

theorem test_wf_ldi : Instr.wellFormed (.ldi 8 0) = false ∧ Instr.wellFormed (.ldi 7 255) = true := by decide
theorem test_wf_prn : Instr.wellFormed (.prn 8) = false := by decide
theorem test_wf_add : Instr.wellFormed (.add 8 0) = false ∧ Instr.wellFormed (.add 0 8) = false := by decide
theorem test_wf_mul : Instr.wellFormed (.mul 255 0) = false ∧ Instr.wellFormed (.mul 0 9) = false := by decide
theorem test_wf_cmp : Instr.wellFormed (.cmp 16 0) = false ∧ Instr.wellFormed (.cmp 7 8) = false := by decide
theorem test_wf_push : Instr.wellFormed (.push 8) = false := by decide
theorem test_wf_pop : Instr.wellFormed (.pop 8) = false := by decide
theorem test_wf_call : Instr.wellFormed (.call 8) = false := by decide
theorem test_wf_jmp : Instr.wellFormed (.jmp 8) = false := by decide
theorem test_wf_jeq : Instr.wellFormed (.jeq 128) = false := by decide
theorem test_wf_jne : Instr.wellFormed (.jne 8) = false ∧ Instr.wellFormed (.jne 7) = true := by decide

/-! ### Decoding: every constructor by its bytes (30_encoding.md R46, R51 to R53), and what is no instruction (R54) -/

theorem test_decode_hlt : decode hardware [0b00000001, 9] = .ok (.hlt, [9]) := by decide
theorem test_decode_ldi : decode hardware [0b10000010, 0, 8] = .ok (.ldi 0 8, []) := by decide
theorem test_decode_prn : decode hardware [0b01000111, 3] = .ok (.prn 3, []) := by decide
theorem test_decode_add : decode hardware [0b10100000, 0, 1] = .ok (.add 0 1, []) := by decide
theorem test_decode_mul : decode hardware [0b10100010, 6, 5] = .ok (.mul 6 5, []) := by decide
theorem test_decode_cmp : decode hardware [0b10100111, 1, 2] = .ok (.cmp 1 2, []) := by decide
theorem test_decode_push : decode hardware [0b01000101, 7] = .ok (.push 7, []) := by decide
theorem test_decode_pop : decode hardware [0b01000110, 3] = .ok (.pop 3, []) := by decide
theorem test_decode_call : decode hardware [0b01010000, 2] = .ok (.call 2, []) := by decide
theorem test_decode_ret : decode hardware [0b00010001] = .ok (.ret, []) := by decide
theorem test_decode_jmp : decode hardware [0b01010100, 2] = .ok (.jmp 2, []) := by decide
theorem test_decode_jeq : decode hardware [0b01010101, 4] = .ok (.jeq 4, []) := by decide
theorem test_decode_jne : decode hardware [0b01010110, 255] = .ok (.jne 255, []) := by decide
/-- Vectors V5, V6: one bit from HLT, one bit from LDI. -/
theorem test_decode_near_misses : decode hardware [0x02] = .error (.illegalOpcode 0x02) ∧
    decode hardware [0x83, 0, 8] = .error (.illegalOpcode 0x83) := by decide
theorem test_decode_short : decode hardware [0x82, 0] = .error (.missingOperand .ldi) ∧
    decode hardware [] = .error .noBytes := by decide
theorem test_table_word : decodeTableWord 24 0x080082 = some (.ldi 0 8) ∧ decodeTableWord 8 0x4582 = some (.ldi 0 0) := by
  decide

/-! ### One step each (95_test_vectors.md section 2) -/

/-- V2. -/
theorem test_hlt : (after (step (st [0x01] 11 (regs 17 0 0)))).map (fun t => (t.run, t.pc)) = some (.halted, 11) := by decide
/-- L1. -/
theorem test_ldi : (after (step (st [0x82, 0, 8] 0 zeros))).map (fun t => (t.x, t.pc)) = some (regs 8 0 0, 3) := by decide
/-- L5: the last three bytes of memory; `pc` is held as 256. -/
theorem test_ldi_top : (after (step (st [0x82, 0, 0x82] 253 zeros))).map (fun t => (t.x, t.pc)) =
    some (regs 130 0 0, 256) := by decide
/-- L8. -/
theorem test_prn_sp : (after (step (st [0x47, 7] 0 (regs 0 0 240)))).map (fun t => (t.out, t.pc)) = some ([240], 2) := by
  decide
/-- A4: the sum wraps; `FL` is left alone (A12). -/
theorem test_add_wraps : (after (step (st [0xA0, 0, 1] 0 (regs 255 1 0) 0b010))).map (fun t => (t.x, t.fl, t.pc)) =
    some (regs 0 1 0, 0b010, 3) := by decide
/-- A8: the same register twice. -/
theorem test_add_doubles : (after (step (st [0xA0, 0, 0] 0 (regs 200 0 0)))).map (·.x) = some (regs 144 0 0) := by decide
/-- M7. -/
theorem test_mul_wraps : (after (step (st [0xA2, 0, 1] 0 (regs 20 13 0)))).map (·.x) = some (regs 4 13 0) := by decide
/-- M11: a bad second operand. -/
theorem test_mul_bad_register : (after (step (st [0xA2, 1, 8] 0 zeros))).map (fun t => (t.run, t.pc)) =
    some (.faulted (.outOfBounds .reg 8), 0) := by decide
/-- P7c: the comparison is unsigned. -/
theorem test_cmp_unsigned : (after (step (st [0xA7, 0, 1] 0 (regs 200 100 0)))).map (·.fl) = some 0b010 := by decide
/-- P4c: the old flags are replaced. -/
theorem test_cmp_less : (after (step (st [0xA7, 0, 1] 0 (regs 0 255 0) 0b001))).map (·.fl) = some 0b100 := by decide
/-- K5: PUSH R7 stores the old SP. -/
theorem test_push_sp : (after (step (st [0x45, 7] 4 (regs 0 0 0xF0)))).map (fun t => (sp t, cell 0xEF t, t.pc)) =
    some (0xEF, 0xF0, 6) := by decide
/-- K3: SP = 0. -/
theorem test_push_overflow : (after (step (st [0x45, 0] 4 (regs 5 0 0)))).map (fun t => (t.run, sp t, t.pc)) =
    some (.faulted (.stackOverflow 0), 0, 4) := by decide
/-- K6: POP R7 leaves SP = the popped byte. -/
theorem test_pop_sp : (after (step (stM 0xEF 0x33 (st [0x46, 7] 4 (regs 0 0 0xEF))))).map (fun t => (sp t, t.pc)) =
    some (0x33, 6) := by decide
/-- K8: the highest pop. -/
theorem test_pop_top : (after (step (stM 254 9 (st [0x46, 0] 4 (regs 0 0 254))))).map (fun t => (t.x, cell 254 t)) =
    some (regs 9 0 255, 9) := by decide
/-- C6: CALL R7 jumps to the new SP. -/
theorem test_call_sp : (after (step (st [0x50, 7] 0x0E (regs 0 0 0xF0)))).map (fun t => (sp t, cell 0xEF t, t.pc)) =
    some (0xEF, 0x10, 0xEF) := by decide
/-- C8: the return-address check comes before the stack check. -/
theorem test_call_at_254 : (after (step (st [0x50, 1] 254 (regs 0 0x17 0)))).map (·.run) =
    some (.faulted (.outOfBounds .mem 256)) := by decide
/-- C12: RET returns to whatever byte is on top. -/
theorem test_ret : (after (step (stM 0 0x82 (st [0x11] 0x1A zeros)))).map (fun t => (t.pc, sp t)) = some (0x82, 1) := by
  decide
/-- C11. -/
theorem test_ret_underflow : (after (step (st [0x11] 0x1A (regs 0 0 255)))).map (fun t => (t.run, t.pc)) =
    some (.faulted (.stackUnderflow 255), 0x1A) := by decide
/-- J3. -/
theorem test_jmp : (after (step (st [0x54, 7] 0x10 (regs 0 0 0xF0)))).map (·.pc) = some 0xF0 := by decide
/-- J6, J8. -/
theorem test_jeq : (after (step (st [0x55, 1] 0x0C (regs 0 0x13 0) 0b001))).map (·.pc) = some 0x13 ∧
    (after (step (st [0x55, 1] 0x0C (regs 0 0x13 0) 0b010))).map (·.pc) = some 0x0E := by decide
/-- J14: the index is checked although the jump would not be taken. -/
theorem test_jeq_bad_register : (after (step (st [0x55, 9] 0x0C zeros))).map (·.run) =
    some (.faulted (.outOfBounds .reg 9)) := by decide
/-- J10, J13. -/
theorem test_jne : (after (step (st [0x56, 1] 0x19 (regs 0 0x20 0) 0b001))).map (·.pc) = some 0x1B ∧
    (after (step (st [0x56, 1] 0x19 (regs 0 0x20 0) 0b000))).map (·.pc) = some 0x20 := by decide

/-! ### The loop, the top of memory, the other configurations -/

/-- V3, V9. -/
theorem test_step_faults : (after (step State.reset)).map (·.run) = some (.faulted (.illegalOpcode 0)) ∧
    (after (step (st [] 256 zeros))).map (·.run) = some (.faulted (.outOfBounds .mem 256)) := by decide
/-- T3, T9, T11, T13 under `SUPPRESS`. -/
theorem test_top_suppress : (after (step (st [0x01] 255 zeros))).map (·.run) = some .halted ∧
    (after (step (st [0x47] 255 zeros))).map (·.run) = some (.faulted (.outOfBounds .mem 256)) ∧
    (after (step (st [0x82, 0] 254 zeros))).map (·.run) = some (.faulted (.outOfBounds .mem 256)) ∧
    (after (step (st [0xFF] 255 zeros))).map (·.run) = some (.faulted (.illegalOpcode 255)) := by decide
/-- T1, T2, T13 under `STRICT3`. -/
theorem test_top_strict3 : (after (stepIn strictHw (st [0x01] 253 zeros))).map (·.run) = some .halted ∧
    (after (stepIn strictHw (st [0x01] 254 zeros))).map (·.run) = some (.faulted (.outOfBounds .mem 256)) ∧
    (after (stepIn strictHw (st [0xFF] 255 zeros))).map (·.run) = some (.faulted (.outOfBounds .mem 256)) := by decide
/-- A6, M8, K20, K17, K18 under `WIDE`. -/
theorem test_wide : (after (stepIn wideHw (st [0xA0, 0, 1] 0 (regs 255 255 0)))).map (·.x) = some (regs 510 255 0) ∧
    (after (stepIn wideHw (st [0xA2, 0, 1] 0 (regs 255 255 0)))).map (·.x) = some (regs 65025 255 0) ∧
    (after (stepIn wideHw (stM 255 9 (st [0x46, 0] 4 (regs 0 0 255))))).map (·.x) = some (regs 9 0 256) ∧
    (after (stepIn wideHw (st [0x45, 0] 4 (regs 300 0 0x80)))).map (·.run) = some (.faulted (.outOfBounds .val 300)) ∧
    (after (stepIn wideHw (st [0x45, 0] 4 (regs 5 0 300)))).map (·.run) = some (.faulted (.outOfBounds .mem 299)) := by
  decide
/-- K15, K16 under `WRAP`. -/
theorem test_wrap : (after (stepIn wrapHw (st [0x45, 0] 4 (regs 5 0 0)))).map (fun t => (sp t, cell 255 t)) = some (255, 5) ∧
    (after (stepIn wrapHw (stM 255 9 (st [0x46, 0] 4 (regs 0 0 255))))).map (·.x) = some (regs 9 0 0) := by decide
/-- S7: the source's program, its first and second steps; the host's load. -/
theorem test_boot : ((boot [0x82, 0, 8, 0x82, 1, 9]).bind fun s => after (step s)).map (fun t => (t.x, t.pc, cell 3 t)) =
    some (regs 8 0 0, 3, 0x82) := by decide
theorem test_withFetchWord : (after (step (State.reset.withFetchWord 24 0x080082))).map (·.x) = some (regs 8 0 0) := by
  decide
/-- R24: 17 is `17`, 0 is `0`, 300 is `300`. -/
theorem test_render : renderLine 17 = ['1', '7', '\n'] ∧ renderLine 0 = ['0', '\n'] ∧ renderLine 300 = ['3', '0', '0', '\n'] := by
  decide
/-- V7. -/
theorem test_stopped : after (step { State.reset with run := .halted }) = none ∧
    hostStep { State.reset with run := .halted } = ({ State.reset with run := .halted }, false) := by decide

/-! ### Witnesses: the hypotheses of each statement are met, clause by clause, at the boundaries -/

theorem witness_DecodeInvertsEncode : hardware.Wf ∧ wideHw.Wf ∧ wrapHw.Wf ∧ strictHw.Wf := by decide
theorem witness_EncodeInvertsDecode : decode hardware [0x11, 5] = .ok (.ret, [5]) := by decide
theorem witness_IllegalOpcodeFaults :
    (State.reset.run = .running ∧ State.reset.pc ≤ 255 ∧ dispatchTable hardware (cell 0 State.reset) = none) ∧
    ((st [0xFF] 255 zeros).run = .running ∧ dispatchTable hardware (cell 255 (st [0xFF] 255 zeros)) = none) := by decide
/-- Operand bytes above 7 at both ends of their range, for every statement with that clause. -/
theorem witness_bad_operand : 7 < (8 : Byte).toNat ∧ 7 < (255 : Byte).toNat := by decide
theorem witness_AddSums_MulMultiplies : wideHw.regMode = .wide := by decide
theorem witness_CmpSetsFlags : readReg 0 (st [] 0 (regs 3 5 0)) < readReg 1 (st [] 0 (regs 3 5 0)) ∧
    readReg 0 (st [] 0 (regs 5 3 0)) > readReg 1 (st [] 0 (regs 5 3 0)) ∧
    readReg 0 (st [] 0 (regs 4 4 0)) = readReg 1 (st [] 0 (regs 4 4 0)) := by decide
theorem witness_PushStores :
    (readReg 0 (st [] 0 (regs 255 0 1)) ≤ 255 ∧ sp (st [] 0 (regs 255 0 1)) = 1) ∧
    (readReg 0 (st [] 0 (regs 0 0 256)) ≤ 255 ∧ sp (st [] 0 (regs 0 0 256)) = 256) ∧
    255 < readReg 0 (st [] 0 (regs 256 0 0)) ∧ sp (st [] 0 (regs 0 0 0)) = 0 ∧ 256 < sp (st [] 0 (regs 0 0 257)) ∧
    hardware.stackPolicy = .fault := by decide
theorem witness_PopLoads_RetPopsPc : sp (st [] 0 (regs 0 0 254)) ≤ 254 ∧ 254 < sp (st [] 0 (regs 0 0 255)) ∧
    (wideHw.stackPolicy = .fault ∧ wideHw.regMode = .wide ∧ sp (st [] 0 (regs 0 0 255)) ≤ 255) ∧
    255 < sp (st [] 0 (regs 0 0 256)) := by decide
theorem witness_CallPushesReturn :
    ((st [] 253 (regs 0 0 1)).pc + 2 ≤ 255 ∧ sp (st [] 253 (regs 0 0 1)) = 1) ∧
    ((st [] 253 (regs 0 0 256)).pc + 2 ≤ 255 ∧ sp (st [] 253 (regs 0 0 256)) = 256) ∧
    255 < (st [] 254 zeros).pc + 2 ∧ ((st [] 253 zeros).pc + 2 ≤ 255 ∧ sp (st [] 253 zeros) = 0) ∧
    ((st [] 253 (regs 0 0 257)).pc + 2 ≤ 255 ∧ 256 < sp (st [] 253 (regs 0 0 257))) := by decide
theorem witness_JeqBranches_JneBranches : (st [] 0 zeros 0b001).fl[0] = true ∧ (st [] 0 zeros 0b110).fl[0] = false := by
  decide
theorem witness_StepExistsWhileRunning : State.reset.run = .running ∧
    ({ State.reset with run := .halted } : State).run ≠ .running ∧
    ({ State.reset with run := .faulted (.stackOverflow 0) } : State).run ≠ .running := by decide
theorem witness_StepRunsDecoded : (st [0x01] 255 zeros).run = .running ∧
    decode hardware (codeBytes (st [0x01] 255 zeros)) = .ok (.hlt, []) ∧
    decode hardware (codeBytes (st [0x54, 9] 254 zeros)) = .ok (.jmp 9, []) := by decide
theorem witness_FetchAtTopOfMemory : 255 < (st [] 256 zeros).pc ∧
    (dispatchTable hardware (cell 255 (st [0x47] 255 zeros)) = some .prn ∧ 255 < 255 + Opcode.prn.format.ops) ∧
    (dispatchTable hardware (cell 254 (st [0x82] 254 zeros)) = some .ldi ∧ 255 < 254 + Opcode.ldi.format.ops) ∧
    (dispatchTable hardware (cell 255 (st [0x11] 255 zeros)) = some .ret ∧ 255 + Opcode.ret.format.ops ≤ 255) ∧
    (dispatchTable hardware (cell 253 (st [0x82] 253 zeros)) = some .ldi ∧ 253 + Opcode.ldi.format.ops ≤ 255) ∧
    strictHw.overfetch = .strict3 := by decide
theorem witness_OverfetchUnobservable : (st [] 253 zeros).pc + 2 ≤ 255 := by decide
theorem witness_FaultChangesOnlyRun : (after (stepIn hardware State.reset)).map (·.run) =
    some (.faulted (.illegalOpcode 0)) := by decide
/-- For HandlerSetsPcOrRun, a running state for each clause: fetched; halted; faulted; sequential; a register; RET. -/
theorem witness_HandlerSetsPcOrRun :
    ((st [0x01] 255 zeros).run = .running ∧ fetch hardware (st [0x01] 255 zeros) = .ok .hlt) ∧
    (after (exec .hlt State.reset)).map (·.run) = some .halted ∧
    (after (exec (.push 0) State.reset)).map (·.run) = some (.faulted (.stackOverflow 0)) ∧
    (after (exec (.jne 0) (st [] 254 (regs 9 0 0) 0b001))).map (fun t => (t.run, t.pc)) = some (.running, 256) ∧
    (after (exec (.call 7) (st [] 253 (regs 0 0 255)))).map (fun t => (t.run, t.pc)) = some (.running, 254) ∧
    (after (exec .ret State.reset)).map (·.run) = some .running := by decide
/-- `exec` answers a next state, from a running state: for OutputOnlyByPrn,
FlagsWrittenByCmpReadByJumps, FrameRegisterWriters, FrameNoRegisterWriters, AluExchangesOperands, UnsupportedAluUnreachable. -/
theorem witness_exec_next : State.reset.run = .running ∧
    (after (exec .hlt State.reset)).map (·.run) = some .halted ∧
    (after (exec (.ldi 0 1) State.reset)).map (·.run) = some .running ∧
    (after (exec (.add (regByte 0) (regByte 1)) State.reset)).isSome = true ∧
    (after (exec (.mul (regByte 1) (regByte 0)) State.reset)).isSome = true ∧
    (after (stepIn hardware (st [0x01] 0 zeros))).isSome = true ∧
    (after (exec (.cmp 0 1) State.reset)).isSome = true ∧
    (after (exec (.prn 0) State.reset)).isSome = true ∧
    (after (exec (.push 0) (st [] 0 (regs 0 0 1)))).isSome = true := by decide
/-- For FlagsWrittenByCmpReadByJumps: CMP changes `FL`; two values of `FL` with the same bit E. -/
theorem witness_FlagsWrittenByCmpReadByJumps : (after (exec (.cmp 0 1) State.reset)).map (·.fl) = some 0b001 ∧
    State.reset.fl = 0b000 ∧ (0b110 : BitVec 3)[0] = State.reset.fl[0] := by decide
theorem witness_MemoryOnlyByStack :
    (after (exec (.push 0) (st [] 0 (regs 9 0 1)))).map (·.mem) = some [(0, 9)] ∧ (st [] 0 (regs 9 0 1)).mem = [] := by
  decide
theorem witness_RunEndsByHltOrFault :
    (after (step (st [0x01] 0 zeros))).map ended = some true ∧ (after (step State.reset)).map ended = some true := by decide
theorem witness_CheckedMemoryAccess : (255 : Nat) ≤ 255 ∧ (255 : Nat) < 256 := by decide
/-- A state of byte registers, for RegsFit. -/
theorem witness_regsFit : RegsFit (st [] 0 (regs 255 0 255)) := by unfold RegsFit; decide
theorem witness_PopPrimitive : hardware.stackPolicy = .fault ∧ hardware.regMode = .wrap8 ∧
    254 < sp (st [] 0 (regs 0 0 255)) ∧ sp (st [] 0 (regs 0 0 254)) ≤ 254 := by decide
theorem witness_WrapPolicy : wrapHw.Wf ∧ wrapHw.stackPolicy = .wrap ∧ RegsFit (st [] 0 zeros) :=
  ⟨by decide, rfl, by unfold RegsFit; decide⟩
theorem witness_PushPopRoundTrip : readReg 0 (st [] 0 (regs 255 0 1)) ≤ 255 ∧ 1 ≤ sp (st [] 0 (regs 255 0 1)) ∧
    sp (st [] 0 (regs 255 0 1)) ≤ 255 ∧ (1 : Fin 8) ≠ 7 := by decide
theorem witness_CallRetRoundTrip : (st [] 253 (regs 0 0 255)).pc + 2 ≤ 255 ∧ 1 ≤ sp (st [] 253 (regs 0 0 255)) ∧
    sp (st [] 253 (regs 0 0 255)) ≤ 255 := by decide
/-- Each clause has a state of its own: 0x01 at 255; 0x00, no opcode; LDI's three bytes ending at 255, and PUSH's at 255
without its operand. -/
theorem witness_StoreIsFetchedNext :
    (∀ s ∈ [st [] 253 (regs 1 0 256), st [] 8 (regs 0 0 11), st [] 251 (regs 0x82 0 254), st [] 253 (regs 0x45 0 256)],
      s.run = .running ∧ readReg 0 s ≤ 255 ∧ sp s = s.pc + 3 ∧ sp s ≤ 256) ∧
    readReg 0 (st [] 253 (regs 1 0 256)) = 1 ∧
    dispatchTable hardware (BitVec.ofNat 8 (readReg 0 (st [] 8 (regs 0 0 11)))) = none ∧
    (dispatchTable hardware (BitVec.ofNat 8 (readReg 0 (st [] 251 (regs 0x82 0 254)))) = some .ldi ∧
      251 + 2 + Opcode.ldi.format.ops = 255) ∧
    (dispatchTable hardware (BitVec.ofNat 8 (readReg 0 (st [] 253 (regs 0x45 0 256)))) = some .push ∧
      253 + 2 + Opcode.push.format.ops = 256) := by decide
theorem witness_LoadFillsMemory : (List.replicate 256 (1 : Byte)).length ≤ 256 ∧
    256 < (List.replicate 257 (1 : Byte)).length :=
  ⟨List.length_replicate.le, by rw [List.length_replicate]; omega⟩
theorem witness_DecimalOutput : (0 : Nat) = 0 ∧ (10 : Nat) ≠ 0 := by decide
theorem witness_FrameStackWriters : pushAddr hardware (st [] 0 (regs 0 0 1)) = .ok 0 ∧
    pushAddr hardware (st [] 0 zeros) = .error (.stackOverflow 0) := by decide
theorem witness_FrameStackReaders : (after (exec (.pop 0) State.reset)).isSome = true ∧
    (after (exec .ret State.reset)).isSome = true := by decide

/-- A legal state that is not the reset state: PRN R0 at 254, R0 = 255. -/
def legal : State := st [0x47, 0] 254 (regs 255 0 0)
theorem witness_inv (c : Config) (hc : c.flReset = 0) : Inv c legal where
  memory := by decide
  flags := .inl hc.symm
  regs := by unfold RegsFit; decide
  pc := by decide
  out := by decide
theorem witness_StepKeepsInvariant : Inv hardware legal ∧ (after (step legal)).map (·.pc) = some 256 :=
  ⟨witness_inv hardware rfl, by decide⟩
theorem witness_EveryWrapMachineKeepsInvariant : wrapHw.regMode = .wrap8 ∧ Inv wrapHw legal ∧
    (after (stepIn wrapHw legal)).isSome = true := ⟨rfl, witness_inv wrapHw rfl, by decide⟩
theorem witness_EveryMachineKeepsMemoryAndFlags : CommonInv wideHw legal ∧ (after (stepIn wideHw legal)).isSome = true :=
  ⟨(witness_inv wideHw rfl).toCommonInv, by decide⟩
theorem witness_EveryRunKeepsInvariant : ∃ s t, boot [0x01] = some s ∧ Reaches s t ∧ t.run = .halted :=
  ⟨_, _, rfl, .step .refl (show step _ = .next { st [0x01] 0 zeros with run := .halted } from rfl), rfl⟩
/-- The clauses of `Inv hardware` at `FL = FL_RESET`, in a form that `decide` decides. -/
theorem inv_of_clauses {s : State} (h : Memory.wf s.mem ∧ s.fl = 0 ∧ (∀ i : Fin 8, readReg i s ≤ 255) ∧ s.pc ≤ 256 ∧
    ∀ v ∈ s.out, v ≤ 255) : Inv hardware s where
  memory := h.1
  flags := .inl h.2.1
  regs := h.2.2.1
  pc := h.2.2.2.1
  out := h.2.2.2.2

/-- A state for each error that PossibleError allows, at both ends of an `info` range: an illegal byte; `(MEM, 256)` by the
opcode fetch, an operand fetch and CALL; `(REG, 8)` and `(REG, 255)`; `StackOverflow(0)`; `StackUnderflow(255)`. -/
def faulting : List (State × FatalError) :=
  [(st [0xFF] 0 zeros, .illegalOpcode 0xFF), (st [] 256 zeros, .outOfBounds .mem 256),
    (st [0x47] 255 zeros, .outOfBounds .mem 256), (st [0x50, 0] 254 zeros, .outOfBounds .mem 256),
    (st [0x47, 8] 4 zeros, .outOfBounds .reg 8), (st [0xA0, 0, 255] 4 zeros, .outOfBounds .reg 255),
    (st [0x45, 0] 4 zeros, .stackOverflow 0), (st [0x46, 0] 4 (regs 0 0 255), .stackUnderflow 255)]

theorem faulting_legal : ∀ p ∈ faulting, Memory.wf p.1.mem ∧ p.1.fl = 0 ∧ (∀ i : Fin 8, readReg i p.1 ≤ 255) ∧
    p.1.pc ≤ 256 ∧ ∀ v ∈ p.1.out, v ≤ 255 := by decide

/-- Each of them is legal, and its step raises its error. -/
theorem witness_OnlyPossibleErrors : ∀ p ∈ faulting,
    Inv hardware p.1 ∧ (after (step p.1)).map (·.run) = some (.faulted p.2) :=
  fun p hp => ⟨inv_of_clauses (faulting_legal p hp),
    (by decide : ∀ p ∈ faulting, (after (step p.1)).map (·.run) = some (.faulted p.2)) p hp⟩
theorem witness_RegisterModesAgree : hardware.stackPolicy = .fault ∧ RegsFit (st [] 0 (regs 100 155 254)) ∧
    readReg 0 (st [] 0 (regs 100 155 254)) + readReg 1 (st [] 0 (regs 100 155 254)) ≤ 255 ∧
    sp (st [] 0 (regs 100 155 254)) ≠ 255 := ⟨rfl, by unfold RegsFit; decide, by decide, by decide⟩

end Sys2Proof.Tests
end

section
/-! The register file and `pc` under the effect of an instruction, and the frame of every instruction field by field, errors
included (spec/10_state.md R11 to R24). -/

namespace Sys2Proof.Machine

variable {c : Config} {s t : State} {i : Instr}

/-- The registers an instruction may write: operand A's of LDI, ADD and MUL; SP of the stack instructions, with POP's operand
(10_state.md R14). -/
def WritesReg (j : Fin 8) : Instr → Prop
  | .ldi x _ | .add x _ | .mul x _ => x = regByte j
  | .push _ | .call _ | .ret => j = spIndex
  | .pop x => j = spIndex ∨ x = regByte j
  | .hlt | .prn _ | .cmp _ _ | .jmp _ | .jeq _ | .jne _ => False

/-- An effect keeps every register the instruction does not write. -/
theorem effect_readReg {j : Fin 8} (h : Effect c s t i) (hj : ¬ WritesReg j i) : readReg j t = readReg j s := by
  cases i <;> simp only [Effect] at h <;> simp only [WritesReg, not_or] at hj
  case ldi => obtain ⟨r, rfl, rfl⟩ := h; exact readReg_writeReg_ne s (fun e => hj (congrArg regByte e.symm)) _
  case add => obtain ⟨a, b, rfl, _, rfl⟩ := h; exact readReg_writeReg_ne s (fun e => hj (congrArg regByte e.symm)) _
  case mul => obtain ⟨a, b, rfl, _, rfl⟩ := h; exact readReg_writeReg_ne s (fun e => hj (congrArg regByte e.symm)) _
  case push => obtain ⟨r, a, _, _, _, _, rfl⟩ := h; exact readReg_setSp_ne s hj a
  case call => obtain ⟨r, a, _, _, _, _, rfl⟩ := h; exact readReg_setSp_ne s hj a
  case ret => obtain ⟨p, _, _, rfl⟩ := h; exact readReg_setSp_ne s hj p
  case pop =>
    obtain ⟨r, p, rfl, _, _, rfl⟩ := h
    exact (readReg_writeReg_ne _ (fun e => hj.2 (congrArg regByte e.symm)) _).trans (readReg_setSp_ne s hj.1 p)
  case hlt => subst h; rfl
  case prn => obtain ⟨r, _, rfl⟩ := h; rfl
  case cmp => obtain ⟨a, b, _, _, rfl⟩ := h; rfl
  case jmp => obtain ⟨r, _, rfl⟩ := h; rfl
  case jeq => obtain ⟨r, _, rfl⟩ := h; split <;> rfl
  case jne => obtain ⟨r, _, rfl⟩ := h; split <;> rfl

/-- Where an effect leaves `pc`: at HLT's own address, behind the instruction, at a register's value, or at a byte popped. -/
theorem effect_pc (h : Effect c s t i) :
    t.pc = s.pc ∨ t.pc = s.pc + i.opcode.format.ops + 1 ∨ (∃ r, t.pc = readReg r t) ∨ ∃ b : Byte, t.pc = b.toNat := by
  cases i <;> simp only [Effect] at h
  case hlt => subst h; exact .inl rfl
  case call => obtain ⟨r, a, _, _, _, _, rfl⟩ := h; exact .inr (.inr (.inl ⟨r, rfl⟩))
  case ret => obtain ⟨p, _, _, rfl⟩ := h; exact .inr (.inr (.inr ⟨_, rfl⟩))
  case jmp => obtain ⟨r, _, rfl⟩ := h; exact .inr (.inr (.inl ⟨r, rfl⟩))
  case jeq =>
    obtain ⟨r, _, rfl⟩ := h
    split
    · exact .inr (.inr (.inl ⟨r, rfl⟩))
    · exact .inr (.inl rfl)
  case jne =>
    obtain ⟨r, _, rfl⟩ := h
    split
    · exact .inr (.inl rfl)
    · exact .inr (.inr (.inl ⟨r, rfl⟩))
  all_goals right; left
  case ldi => obtain ⟨r, _, rfl⟩ := h; rfl
  case prn => obtain ⟨r, _, rfl⟩ := h; rfl
  case add => obtain ⟨a, b, _, _, rfl⟩ := h; rfl
  case mul => obtain ⟨a, b, _, _, rfl⟩ := h; rfl
  case cmp => obtain ⟨a, b, _, _, rfl⟩ := h; rfl
  case push => obtain ⟨r, a, _, _, _, _, rfl⟩ := h; rfl
  case pop => obtain ⟨r, p, _, _, _, rfl⟩ := h; rfl

/-- What CMP writes is one of the three patterns (R19). -/
theorem compareFlags_pattern (u v : Nat) :
    compareFlags u v = flLess ∨ compareFlags u v = flGreater ∨ compareFlags u v = flEqual := by
  unfold compareFlags
  split_ifs <;> simp

/-! ### Frames of a whole execution: the effect, or an error that leaves every field but `run` -/

theorem execIn_readReg {j : Fin 8} (h : execIn c i s = .next t) (hj : ¬ WritesReg j i) : readReg j t = readReg j s := by
  rcases execIn_next h with h | ⟨e, -, rfl⟩
  · exact effect_readReg h hj
  · rfl

theorem execIn_mem (h : execIn c i s = .next t) (hpush : ∀ r, i ≠ .push r) (hcall : ∀ r, i ≠ .call r) :
    t.mem = s.mem := by
  rcases execIn_next h with h | ⟨e, -, rfl⟩
  · rcases effect_mem h with h | ⟨_, _, _, _, _, ⟨r, hr⟩ | ⟨r, hr⟩⟩
    · exact h
    · exact absurd hr (hpush r)
    · exact absurd hr (hcall r)
  · rfl

theorem execIn_fl (h : execIn c i s = .next t) :
    t.fl = s.fl ∨ ((∃ a b, i = .cmp a b) ∧ ∃ u v, t.fl = compareFlags u v) := by
  rcases execIn_next h with h | ⟨e, -, rfl⟩
  · exact effect_fl h
  · exact .inl rfl

theorem execIn_out (h : execIn c i s = .next t) :
    t.out = s.out ∨ ∃ r, i = .prn (regByte r) ∧ t.out = s.out ++ [readReg r s] := by
  rcases execIn_next h with h | ⟨e, -, rfl⟩
  · exact effect_out h
  · exact .inl rfl

theorem execIn_run (h : execIn c i s = .next t) :
    t.run = s.run ∨ (i = .hlt ∧ t = { s with run := .halted }) ∨ ∃ e, t = raise e s := by
  rcases execIn_next h with h | ⟨e, -, rfl⟩
  · exact (effect_run h).imp_right .inl
  · exact .inr (.inr ⟨e, rfl⟩)

theorem execIn_fl_of_ne_cmp (h : execIn c i s = .next t) (hi : ∀ a b, i ≠ .cmp a b) : t.fl = s.fl :=
  (execIn_fl h).resolve_right fun ⟨⟨a, b, hab⟩, _⟩ => hi a b hab

theorem execIn_out_of_ne_prn (h : execIn c i s = .next t) (hi : ∀ r, i ≠ .prn r) : t.out = s.out :=
  (execIn_out h).resolve_right fun ⟨_, hr, _⟩ => hi _ hr

/-- Equal memories hold equal cells. -/
theorem cell_congr (h : t.mem = s.mem) (a : Nat) : cell a t = cell a s := congrArg (memGet · a) h

end Sys2Proof.Machine
end

section
/-! The invariant (spec/10_state.md R12, R18, R20, R24): what an effect keeps of it, part by part, and the step. -/

namespace Sys2Proof.Machine

variable {c : Config} {s t : State} {i : Instr}

/-! ### Registers -/

/-- A write of a byte value keeps byte registers. -/
theorem RegsFit.writeReg (hs : RegsFit s) (r : Fin 8) {v : Nat} (hv : v ≤ 255) : RegsFit (writeReg r v s) := by
  intro j
  rw [readReg_writeReg]
  split
  · exact hv
  · exact hs j

theorem normResult_le (hc : c.regMode = .wrap8) (v : Nat) : normResult c v ≤ 255 := by
  rw [normResult_wrap8 hc]
  omega

/-- SP after a pop of a `WRAP8` machine is a byte, under both stack policies (R91, R95). -/
theorem popSp_le {p : Nat} (hc : c.regMode = .wrap8) (h : popSp c s = .ok p) : p ≤ 255 := by
  cases hp : c.stackPolicy with
  | fault =>
    have hmax : spMaxPop c = 254 := by simp [spMaxPop, hc]
    by_cases hgt : spMaxPop c < sp s
    · rw [popSp_fault_gt hp hgt] at h; cases h
    · rw [popSp_fault hp (Nat.le_of_not_lt hgt)] at h; cases h; omega
  | wrap => rw [popSp_wrap hp] at h; cases h; omega

/-- Under `WRAP8` an effect keeps byte registers: immediates and popped bytes are bytes, results are reduced, and both stack
policies keep SP in range. -/
theorem effect_regsFit (hc : c.regMode = .wrap8) (hs : RegsFit s) (h : Effect c s t i) : RegsFit t := by
  have byte_le (b : Byte) : b.toNat ≤ 255 := Nat.le_of_lt_succ b.isLt
  cases i <;> simp only [Effect] at h
  case ldi => obtain ⟨r, _, rfl⟩ := h; exact hs.writeReg r (byte_le _)
  case add => obtain ⟨a, b, _, _, rfl⟩ := h; exact hs.writeReg a (normResult_le hc _)
  case mul => obtain ⟨a, b, _, _, rfl⟩ := h; exact hs.writeReg a (normResult_le hc _)
  case push => obtain ⟨r, a, _, _, ha, _, rfl⟩ := h; exact hs.writeReg spIndex ha
  case call => obtain ⟨r, a, _, _, ha, _, rfl⟩ := h; exact hs.writeReg spIndex ha
  case ret => obtain ⟨p, hp, _, rfl⟩ := h; exact hs.writeReg spIndex (popSp_le hc hp)
  case pop =>
    obtain ⟨r, p, _, hp, _, rfl⟩ := h
    exact RegsFit.writeReg (hs.writeReg spIndex (popSp_le hc hp)) r (byte_le _)
  case hlt => subst h; exact hs
  case prn => obtain ⟨r, _, rfl⟩ := h; exact hs
  case cmp => obtain ⟨a, b, _, _, rfl⟩ := h; exact hs
  case jmp => obtain ⟨r, _, rfl⟩ := h; exact hs
  case jeq => obtain ⟨r, _, rfl⟩ := h; split <;> exact hs
  case jne => obtain ⟨r, _, rfl⟩ := h; split <;> exact hs

/-! ### `pc`, output, memory and flags -/

/-- An instruction whose bytes lie in memory leaves `pc` at most 256 (R18). -/
theorem effect_pc_le (ht : RegsFit t) (hfit : s.pc + i.opcode.format.ops ≤ 255) (h : Effect c s t i) : t.pc ≤ 256 := by
  rcases effect_pc h with h | h | ⟨r, h⟩ | ⟨b, h⟩
  · omega
  · omega
  · have := ht r; omega
  · have := b.isLt; omega

theorem effect_out_le (hs : RegsFit s) (hout : ∀ v ∈ s.out, v ≤ 255) (h : Effect c s t i) : ∀ v ∈ t.out, v ≤ 255 := by
  rcases effect_out h with h | ⟨r, -, h⟩ <;> rw [h]
  · exact hout
  · intro v hv
    rcases List.mem_append.mp hv with hv | hv
    · exact hout v hv
    · rw [List.mem_singleton.mp hv]; exact hs r

/-- Under every configuration an effect keeps memory canonical and `FL` a reachable value. -/
theorem effect_commonInv (hs : CommonInv c s) (h : Effect c s t i) : CommonInv c t where
  memory := by
    rcases effect_mem h with h | ⟨a, v, -, ha, h, -⟩ <;> rw [h]
    · exact hs.memory
    · exact wf_memSet (Nat.lt_succ_of_le ha) v hs.memory
  flags := by
    rcases effect_fl h with h | ⟨-, u, v, h⟩
    · rw [FlLegal, h]; exact hs.flags
    · rw [FlLegal, h]; exact .inr (compareFlags_pattern u v)

/-! ### The step -/

/-- A step is the effect of an instruction all of whose bytes lie in memory, or raises an error and leaves the rest. -/
theorem stepIn_effect (h : stepIn c s = .next t) :
    (∃ i, s.pc + i.opcode.format.ops ≤ 255 ∧ Effect c s t i) ∨ ∃ e, t = raise e s := by
  rcases (stepIn_next h).2 with ⟨i, hf, h⟩ | ⟨e, -, rfl⟩
  · obtain ⟨op, -, hfit, rfl⟩ := fetch_eq_ok hf
    rcases execIn_next h with h | ⟨e, -, rfl⟩
    · exact .inl ⟨_, by rwa [assemble_opcode], h⟩
    · exact .inr ⟨e, rfl⟩
  · exact .inr ⟨e, rfl⟩

theorem CommonInv.raise (hs : CommonInv c s) (e : FatalError) : CommonInv c (raise e s) := ⟨hs.memory, hs.flags⟩

theorem Inv.raise (hs : Inv c s) (e : FatalError) : Inv c (raise e s) where
  toCommonInv := hs.toCommonInv.raise e
  regs := hs.regs
  pc := hs.pc
  out := hs.out

theorem stepIn_keeps_inv (hc : c.regMode = .wrap8) (hs : Inv c s) (h : stepIn c s = .next t) : Inv c t := by
  rcases stepIn_effect h with ⟨i, hfit, h⟩ | ⟨e, rfl⟩
  · have hregs := effect_regsFit hc hs.regs h
    exact ⟨effect_commonInv hs.toCommonInv h, hregs, effect_pc_le hregs hfit h, effect_out_le hs.regs hs.out h⟩
  · exact hs.raise e

/-- Settles O49: the step is an effect, which keeps each part of the invariant, or raises an error. -/
theorem everyWrapMachineKeepsInvariant : Obligations.EveryWrapMachineKeepsInvariant :=
  fun _ _ _ hc hs h => stepIn_keeps_inv hc hs h

/-- Settles O48: this hardware is a `WRAP8` machine. -/
theorem stepKeepsInvariant : Obligations.StepKeepsInvariant :=
  fun s _ hs h => stepIn_keeps_inv rfl hs (step_eq_stepIn s ▸ h)

/-! ### Reset and boot -/

@[simp] theorem readReg_resetIn (c : Config) (i : Fin 8) : readReg i (resetIn c) = 0 := by
  fin_cases i <;> rfl

theorem inv_resetIn (c : Config) : Inv c (resetIn c) where
  memory := wf_nil
  flags := .inl rfl
  regs := fun i => by simp
  pc := Nat.zero_le _
  out := fun _ hv => absurd hv List.not_mem_nil

theorem loadImage_eq_some {image : List Byte} (h : loadImage image s = some t) :
    image.length ≤ 256 ∧ t = { s with mem := memSetList 0 image s.mem } := by
  unfold loadImage at h
  split at h
  · exact ⟨by assumption, (Option.some.inj h).symm⟩
  · cases h

/-- Loading an image keeps the invariant: it writes cells below 256 only (70_reset_and_hazards.md R131). -/
theorem loadImage_keeps_inv {image : List Byte} (hs : Inv c s) (h : loadImage image s = some t) : Inv c t := by
  obtain ⟨hlen, rfl⟩ := loadImage_eq_some h
  exact ⟨⟨wf_memSetList image 0 s.mem (by omega) hs.memory, hs.flags⟩, hs.regs, hs.pc, hs.out⟩

/-- Settles O47: reset meets the invariant and the load keeps it. -/
theorem bootMeetsInvariant : Obligations.BootMeetsInvariant :=
  ⟨inv_resetIn hardware, fun _ _ h => loadImage_keeps_inv (inv_resetIn hardware) h⟩

end Sys2Proof.Machine
end

section
/-! What an instruction does not read it cannot depend on (spec/10_state.md R20, R24; spec/20_memory.md R36): from two states
that differ in memory, `FL` and `out` only, and only where the instruction does not read, it makes one and the same change. -/

namespace Sys2Proof.Machine

variable {c : Config} {s s' : State} {m : List Host.Cell} {f : BitVec 3} {o : List Nat}

/-- A change of state: new registers, `pc` and run state, and an update of each of memory, `FL` and `out`. -/
structure Change where
  mem : List Host.Cell → List Host.Cell := id
  x : Vector Nat 8
  pc : Nat
  fl : BitVec 3 → BitVec 3 := id
  run : RunState
  out : List Nat → List Nat := id

/-- The state a change makes. -/
def Change.apply (d : Change) (s : State) : State where
  mem := d.mem s.mem
  x := d.x
  pc := d.pc
  fl := d.fl s.fl
  run := d.run
  out := d.out s.out

/-- `s` with another memory, other flags and another output. -/
abbrev State.withUnread (m : List Host.Cell) (f : BitVec 3) (o : List Nat) (s : State) : State :=
  { s with mem := m, fl := f, out := o }

/-- Two results, settled in their two states, are one change of them. -/
def SameChange (s s' : State) (r r' : Except FatalError State) : Prop :=
  ∃ d : Change, settle s r = .next (d.apply s) ∧ settle s' r' = .next (d.apply s')

/-- A part of a handler that gives both states one result: an error, or a value to go on with. -/
theorem sameChange_bind {α : Type} (p : Except FatalError α) {k k' : α → Except FatalError State}
    (h : ∀ a, p = .ok a → SameChange s (s.withUnread m f o) (k a) (k' a)) :
    SameChange s (s.withUnread m f o) (p >>= k) (p >>= k') := by
  cases p with
  | ok a => exact h a rfl
  | error e => exact ⟨{ x := s.x, pc := s.pc, run := .faulted e }, rfl, rfl⟩

/-- The unit, then `pc + 3`: no operation reads memory, `FL` or `out`. -/
theorem sameChange_alu (op : AluOp) (x y : Byte) :
    SameChange s (s.withUnread m f o) (alu c op x y s >>= fun t => .ok (advance 3 t))
      (alu c op x y (s.withUnread m f o) >>= fun t => .ok (advance 3 t)) := by
  simp only [alu, bind_assoc]
  refine sameChange_bind (regOperand x) fun a _ => sameChange_bind (regOperand y) fun b _ => ?_
  cases op with
  | add =>
    exact ⟨{ x := s.x.set a (normResult c (readReg a s + readReg b s)), pc := s.pc + 3, run := s.run }, rfl, rfl⟩
  | mul =>
    exact ⟨{ x := s.x.set a (normResult c (readReg a s * readReg b s)), pc := s.pc + 3, run := s.run }, rfl, rfl⟩
  | cmp =>
    exact ⟨{ x := s.x, pc := s.pc + 3, fl := fun _ => compareFlags (readReg a s) (readReg b s), run := s.run }, rfl, rfl⟩
  | other n => exact ⟨{ x := s.x, pc := s.pc, run := .faulted (.unsupportedALUOperation n) }, rfl, rfl⟩

/-- A choice that both states take alike. -/
theorem sameChange_ite {b b' : Bool} {u u' v v' : State} (hb : b' = b) (hu : SameChange s s' (.ok u) (.ok u'))
    (hv : SameChange s s' (.ok v) (.ok v')) :
    SameChange s s' (.ok (if b then u else v)) (.ok (if b' then u' else v')) := by
  subst hb
  cases b'
  · exact hv
  · exact hu

/-- A push before a handler's last part `k`: it checks the value, SP and the address, and then writes the cell. -/
theorem sameChange_push {v : Nat} {k : State → Except FatalError State}
    (h : ∀ a, SameChange s (s.withUnread m f o)
      (k { setSp a s with mem := memSet a (BitVec.ofNat 8 v) s.mem })
      (k { setSp a (s.withUnread m f o) with mem := memSet a (BitVec.ofNat 8 v) m })) :
    SameChange s (s.withUnread m f o) (push c v s >>= k) (push c v (s.withUnread m f o) >>= k) := by
  simp only [push, bind_assoc]
  refine sameChange_bind _ fun _ hv => sameChange_bind (pushAddr c s) fun a _ => sameChange_bind _ fun _ ha => ?_
  rw [memWrite_of_le (require_eq_ok ha) (require_eq_ok hv), memWrite_of_le (require_eq_ok ha) (require_eq_ok hv)]
  exact h a

/-- A pop before a handler's last part `k`, from equal memories. -/
theorem sameChange_pop {k : Byte × State → Except FatalError State}
    (h : ∀ v p, SameChange s (s.withUnread s.mem f o) (k (v, setSp p s)) (k (v, setSp p (s.withUnread s.mem f o)))) :
    SameChange s (s.withUnread s.mem f o) (pop c s >>= k) (pop c (s.withUnread s.mem f o) >>= k) := by
  simp only [pop, bind_assoc]
  exact sameChange_bind (popSp c s) fun p _ => sameChange_bind (memRead (sp s) s) fun v _ => h v p

/-- A taken jump to a register. -/
theorem sameChange_jump (r : Fin 8) :
    SameChange s (s.withUnread m f o) (.ok (jump (readReg r s) s)) (.ok (jump (readReg r s) (s.withUnread m f o))) :=
  ⟨{ x := s.x, pc := readReg r s, run := s.run }, rfl, rfl⟩

/-- A jump not taken. -/
theorem sameChange_advance (n : Nat) :
    SameChange s (s.withUnread m f o) (.ok (advance n s)) (.ok (advance n (s.withUnread m f o))) :=
  ⟨{ x := s.x, pc := s.pc + n, run := s.run }, rfl, rfl⟩

/-- **What an instruction does not read it does not depend on**: bit E matters to JEQ and JNE only, memory to POP and RET
only, the rest of `FL` and `out` to none. -/
theorem execIn_sameChange (c : Config) (i : Instr) (s : State)
    (hE : ((∀ r, i ≠ .jeq r) ∧ ∀ r, i ≠ .jne r) ∨ equalBit f = equalBit s.fl)
    (hM : ((∀ r, i ≠ .pop r) ∧ i ≠ .ret) ∨ m = s.mem) :
    ∃ d : Change, execIn c i s = .next (d.apply s) ∧
      execIn c i (s.withUnread m f o) = .next (d.apply (s.withUnread m f o)) := by
  cases i with
  | hlt => exact ⟨{ x := s.x, pc := s.pc, run := .halted }, rfl, rfl⟩
  | ldi x imm =>
    exact sameChange_bind (regOperand x) fun r _ => ⟨{ x := s.x.set r imm.toNat, pc := s.pc + 3, run := s.run }, rfl, rfl⟩
  | prn x =>
    exact sameChange_bind (regOperand x) fun r _ =>
      ⟨{ x := s.x, pc := s.pc + 2, run := s.run, out := (· ++ [readReg r s]) }, rfl, rfl⟩
  | add x y => exact sameChange_alu .add x y
  | mul x y => exact sameChange_alu .mul x y
  | cmp x y => exact sameChange_alu .cmp x y
  | push x =>
    exact sameChange_bind (regOperand x) fun r _ => sameChange_push fun a =>
      ⟨{ mem := memSet a (BitVec.ofNat 8 (readReg r s)), x := s.x.set spIndex a, pc := s.pc + 2, run := s.run }, rfl, rfl⟩
  | pop x =>
    obtain rfl := hM.resolve_left fun h => h.1 x rfl
    exact sameChange_bind (regOperand x) fun r _ => sameChange_pop fun v p =>
      ⟨{ x := (s.x.set spIndex p).set r v.toNat, pc := s.pc + 2, run := s.run }, rfl, rfl⟩
  | call x =>
    exact sameChange_bind (regOperand x) fun r _ => sameChange_bind (require (s.pc + 2 ≤ 255) _) fun _ _ =>
      sameChange_push fun a =>
        ⟨{ mem := memSet a (BitVec.ofNat 8 (s.pc + 2)), x := s.x.set spIndex a, pc := readReg r (setSp a s), run := s.run },
          rfl, rfl⟩
  | ret =>
    obtain rfl := hM.resolve_left fun h => h.2 rfl
    exact sameChange_pop fun v p => ⟨{ x := s.x.set spIndex p, pc := v.toNat, run := s.run }, rfl, rfl⟩
  | jmp x => exact sameChange_bind (regOperand x) fun r _ => sameChange_jump r
  | jeq x =>
    have hE := hE.resolve_left fun h => h.1 x rfl
    exact sameChange_bind (regOperand x) fun r _ => sameChange_ite hE (sameChange_jump r) (sameChange_advance 2)
  | jne x =>
    have hE := hE.resolve_left fun h => h.2 x rfl
    exact sameChange_bind (regOperand x) fun r _ => sameChange_ite hE (sameChange_advance 2) (sameChange_jump r)

/-- Settles O24: the frame of `FL`, and one change from both states. -/
theorem flagsWrittenByCmpReadByJumps : Obligations.FlagsWrittenByCmpReadByJumps := by
  intro i s t h
  rw [exec_eq_execIn] at h
  refine ⟨fun hne => ?_, fun f hf => ?_⟩
  · obtain ⟨hcmp, u, v, hfl⟩ := (execIn_fl h).resolve_left hne
    exact ⟨hcmp, hfl ▸ compareFlags_pattern u v⟩
  · obtain ⟨d, hd, hd'⟩ := execIn_sameChange (o := s.out) hardware i s hf (.inr rfl)
    obtain rfl : d.apply s = t := Host.Outcome.next.inj (hd.symm.trans h)
    exact ⟨_, (exec_eq_execIn i _).trans hd', rfl⟩

/-- Settles O25: the frame of `out`, and one change from both states. -/
theorem outputOnlyByPrn : Obligations.OutputOnlyByPrn := by
  intro i s t h
  rw [exec_eq_execIn] at h
  refine ⟨execIn_out h, fun o => ?_⟩
  obtain ⟨d, hd, hd'⟩ := execIn_sameChange (o := o) hardware i s (.inr rfl) (.inr rfl)
  obtain rfl : d.apply s = t := Host.Outcome.next.inj (hd.symm.trans h)
  exact ⟨_, (exec_eq_execIn i _).trans hd', rfl⟩

end Sys2Proof.Machine
end

section
/-! The decimal output (spec/10_state.md R24): the model's digits are Mathlib's, most significant first. -/

namespace Sys2Proof.Machine

theorem decimalDigits_eq_digits {v fuel : Nat} (hv : v ≠ 0) (hf : v < fuel) :
    decimalDigits fuel v = (Nat.digits 10 v).reverse := by
  induction fuel generalizing v with
  | zero => omega
  | succ fuel ih =>
    rw [decimalDigits]
    split
    · next hlt => rw [Nat.digits_of_lt 10 v hv hlt]; rfl
    · next hge =>
      rw [Nat.digits_def' (by decide) (Nat.pos_of_ne_zero hv), List.reverse_cons, ih (by omega) (by omega)]

theorem decimal_eq_digits {v : Nat} (hv : v ≠ 0) : decimal v = (Nat.digits 10 v).reverse :=
  decimalDigits_eq_digits hv (Nat.lt_succ_self v)

theorem decimal_zero : decimal 0 = [0] := rfl

/-- Reading digits, most significant first, is `Nat.ofDigits` of the reversed list. -/
theorem foldl_digits_reverse (l : List Nat) : l.reverse.foldl (fun acc d => 10 * acc + d) 0 = Nat.ofDigits 10 l := by
  simp [Nat.ofDigits_eq_foldr, Nat.add_comm]

/-- Settles O42: zero is its own digit; any other value has Mathlib's digits. -/
theorem decimalOutput : Obligations.DecimalOutput := by
  intro v
  rcases eq_or_ne v 0 with rfl | hv
  · exact ⟨rfl, by decide, by decide, fun h => absurd rfl h, fun _ => decimal_zero, rfl⟩
  · have hdigits := decimal_eq_digits hv
    have hne : Nat.digits 10 v ≠ [] := Nat.digits_ne_nil_iff_ne_zero.mpr hv
    refine ⟨?_, fun d hd => ?_, by simpa [hdigits], fun _ hhead => ?_, fun h => absurd h hv, rfl⟩
    · rw [hdigits, foldl_digits_reverse, Nat.ofDigits_digits]
    · rw [hdigits, List.mem_reverse] at hd
      exact Nat.digits_lt_base (by decide) hd
    · rw [hdigits, List.head?_reverse, List.getLast?_eq_some_getLast hne] at hhead
      exact Nat.getLast_digit_ne_zero 10 hv (Option.some.inj hhead)

end Sys2Proof.Machine
end

section
/-! The frames of the instructions that write one register or none, the register file and the reset state. -/

namespace Sys2Proof.Machine

/-- Settles O43: each field's frame, and the error's. -/
theorem frameRegisterWriters : Obligations.FrameRegisterWriters := by
  intro i x y s t hi h
  rw [exec_eq_execIn] at h
  have hmem : t.mem = s.mem := execIn_mem h (by rintro r rfl; simp at hi) (by rintro r rfl; simp at hi)
  refine ⟨fun j hj => execIn_readReg h ?_, execIn_fl_of_ne_cmp h ?_, execIn_out_of_ne_prn h ?_, cell_congr hmem, ?_⟩
  · rcases hi with rfl | rfl | rfl <;> exact hj
  · rintro a b rfl; simp at hi
  · rintro r rfl; simp at hi
  · rcases execIn_run h with hr | ⟨rfl, -⟩ | ⟨e, rfl⟩
    · exact .inl hr
    · simp at hi
    · exact .inr ⟨e, rfl, rfl, rfl⟩

/-- Settles O44: each field's frame. -/
theorem frameNoRegisterWriters : Obligations.FrameNoRegisterWriters := by
  intro i s t hi h
  rw [exec_eq_execIn] at h
  have hmem : t.mem = s.mem := execIn_mem h (by rintro r rfl; simp at hi) (by rintro r rfl; simp at hi)
  refine ⟨fun j => execIn_readReg h ?_, cell_congr hmem, execIn_fl_of_ne_cmp h, execIn_out_of_ne_prn h, ?_⟩
  · rcases hi with rfl | ⟨x, rfl⟩ | ⟨x, y, rfl⟩ | ⟨x, rfl⟩ | ⟨x, rfl⟩ | ⟨x, rfl⟩ <;> exact id
  · rcases execIn_run h with hr | ⟨rfl, rfl⟩ | ⟨e, rfl⟩
    · exact .inl hr
    · exact .inr (.inl ⟨rfl, rfl⟩)
    · exact .inr (.inr ⟨e, rfl⟩)

theorem regByte_toNat (i : Fin 8) : (regByte i).toNat = i.val := by
  revert i; decide

/-- Settles O30: SP is the register of index 7, so its clauses are the register file's. -/
theorem registerFile : Obligations.RegisterFile := by
  refine ⟨fun s i j v => ⟨readReg_writeReg s i j v, rfl, ?_, rfl⟩,
    fun i => ⟨regOperand_regByte i, regByte_toNat i⟩, fun _ => regOperand_of_gt⟩
  exact (readReg_writeReg s i spIndex v).trans (if_congr eq_comm rfl rfl)

/-- Settles O39: the fields of `resetIn`. -/
theorem resetState : Obligations.ResetState :=
  ⟨fun c => ⟨fun _ => rfl, readReg_resetIn c, rfl, rfl, rfl, rfl⟩, rfl, rfl⟩

end Sys2Proof.Machine
end

section
/-! Memory (spec/20_memory.md R30 to R44): its canonical form in every machine, who writes and reads it, the checked accesses,
and a stored byte fetched by the next step. -/

namespace Sys2Proof.Machine

variable {c : Config} {s t : State}

theorem stepIn_keeps_commonInv (hs : CommonInv c s) (h : stepIn c s = .next t) : CommonInv c t := by
  rcases stepIn_effect h with ⟨i, -, h⟩ | ⟨e, rfl⟩
  · exact effect_commonInv hs h
  · exact hs.raise e

/-- Settles O50: the step is an effect, which keeps memory and flags under every configuration, or raises an error. -/
theorem everyMachineKeepsMemoryAndFlags : Obligations.EveryMachineKeepsMemoryAndFlags :=
  fun _ _ _ hs h => stepIn_keeps_commonInv hs h

/-- Settles O26: the frame of memory, and one change from both states. -/
theorem memoryOnlyByStack : Obligations.MemoryOnlyByStack := by
  intro i s t h
  rw [exec_eq_execIn] at h
  refine ⟨fun hne => ?_, fun hpop hret m => ?_⟩
  · by_contra hi
    obtain ⟨hpush, hcall⟩ := not_or.mp hi
    exact hne (execIn_mem h (not_exists.mp hpush) (not_exists.mp hcall))
  · obtain ⟨d, hd, hd'⟩ :=
      execIn_sameChange (m := m) (f := s.fl) (o := s.out) hardware i s (.inr rfl) (.inl ⟨hpop, hret⟩)
    obtain rfl : d.apply s = t := Host.Outcome.next.inj (hd.symm.trans h)
    exact ⟨_, (exec_eq_execIn i _).trans hd', rfl⟩

/-! ### Checked access -/

theorem memWrite_of_gt {a : Nat} (ha : 255 < a) (v : Nat) (s : State) :
    memWrite a v s = .error (.outOfBounds .mem a) := by
  simp [memWrite, ha]

theorem memWrite_value {a v : Nat} (ha : a ≤ 255) (hv : 255 < v) (s : State) :
    memWrite a v s = .error (.outOfBounds .val v) := by
  simp [memWrite, Nat.not_lt.mpr ha, hv]

/-- Settles O29: each range of address and value has its law; what the write left is read by the laws of `memSet`. -/
theorem checkedMemoryAccess : Obligations.CheckedMemoryAccess := by
  intro a v s
  refine ⟨fun ha => ⟨memRead_of_gt ha s, memWrite_of_gt ha v s⟩, fun ha => memRead_of_le ha s,
    fun ha hv => memWrite_value ha hv s, fun ha hv => ⟨_, memWrite_of_le ha hv s, rfl, ?_, ?_⟩⟩
  · rw [memRead_of_le ha]
    exact congrArg Except.ok (memGet_memSet_self a _ s.mem)
  · exact fun b hb => memGet_memSet_ne hb _ s.mem

/-! ### A stored byte is fetched by the next step -/

theorem fetch_illegal (hc : c.overfetch = .suppress) (hpc : s.pc ≤ 255) (hd : dispatchTable c (cell s.pc s) = none) :
    fetch c s = .error (.illegalOpcode (cell s.pc s)) := by
  simp [fetch, hc, memRead_of_le hpc, lookup_none hd]

/-- Under both settings of `OVERFETCH`, an instruction that runs past address 255 is not fetched (R61, R62). -/
theorem fetch_past_end {op : Opcode} (hpc : s.pc ≤ 255) (hd : dispatchTable c (cell s.pc s) = some op)
    (hgt : 255 < s.pc + op.format.ops) : fetch c s = .error (.outOfBounds .mem 256) := by
  cases hf : fetch c s with
  | ok i =>
    obtain ⟨op', hd', hle, -⟩ := fetch_eq_ok hf
    obtain rfl : op = op' := Option.some.inj (hd.symm.trans hd')
    omega
  | error e =>
    rcases fetch_eq_error hf with ⟨hpc', -⟩ | ⟨-, hnone, -⟩ | ⟨-, -, rfl⟩
    · omega
    · rw [hd] at hnone; cases hnone
    · rfl

theorem step_of_fetch_ok {i : Instr} (hr : s.run = .running) (hf : fetch hardware s = .ok i) : step s = exec i s := by
  simp [step, hr, hf]

theorem step_of_fetch_error {e : FatalError} (hr : s.run = .running) (hf : fetch hardware s = .error e) :
    step s = .next (raise e s) := by
  simp [step, hr, hf]

/-- PUSH of a register that holds a byte, where SP - 1 is an address of memory (43_stack.md R92). -/
theorem exec_push {r : Fin 8} (hv : readReg r s ≤ 255) (hsp : sp s ≠ 0) (hle : sp s ≤ 256) :
    exec (.push (regByte r)) s = .next (advance 2
      { setSp (sp s - 1) s with mem := memSet (sp s - 1) (BitVec.ofNat 8 (readReg r s)) s.mem }) := by
  have hpush := push_of hv (pushAddr_fault (c := hardware) rfl hsp) (by omega)
  simp [exec, execPush, pushIn, hpush]

/-- Settles O38: the PUSH leaves `pc` at the byte it stored, and the fetch there looks that byte up. -/
theorem storeIsFetchedNext : Obligations.StoreIsFetchedNext := by
  intro r s hrun hv hsp hle
  have hexec := exec_push hv (by omega) hle
  generalize ht : advance 2 _ = t at hexec
  have htrun : t.run = .running := by subst ht; exact hrun
  have htpc : t.pc = sp s - 1 := by subst ht; exact (show s.pc + 2 = sp s - 1 by omega)
  have htsp : sp t = sp s - 1 := by subst ht; exact sp_setSp s _
  have hcell : cell t.pc t = BitVec.ofNat 8 (readReg r s) := by
    rw [htpc]; subst ht; exact memGet_memSet_self _ _ _
  have hpc : t.pc ≤ 255 := by omega
  have hfit {op : Opcode} (hd : dispatchTable hardware (cell t.pc t) = some op) (hop : t.pc + op.format.ops ≤ 255) :
      step t = exec (assemble op (cell (t.pc + 1) t) (cell (t.pc + 2) t)) t :=
    step_of_fetch_ok htrun (fetch_suppress rfl hd hop)
  refine ⟨t, hexec, htpc.trans htsp.symm, hcell, fun hone => ?_, ?_⟩
  · have hhlt : dispatchTable hardware (cell t.pc t) = some .hlt := by rw [hcell, hone]; decide
    exact hfit hhlt hpc
  · rw [← hcell]
    exact ⟨fun hd => step_of_fetch_error htrun (fetch_illegal rfl hpc hd), fun op hd =>
      ⟨hfit hd, fun hgt => step_of_fetch_error htrun (fetch_past_end hpc hd hgt)⟩⟩

end Sys2Proof.Machine
end

section
/-! Encoding and decoding (spec/30_encoding.md R46 to R57). The decoder is its table look-up followed by `takeOperands`; what
`takeOperands` takes is what `Instr.operands` writes. -/

namespace Sys2Proof

variable {c : Config} {op : Opcode} {opA opB : Byte} {bytes rest : List Byte} {i : Instr}

theorem assemble_operands (op : Opcode) (opA opB : Byte) :
    (assemble op opA opB).operands = [opA, opB].take op.format.ops := by
  cases op <;> rfl

theorem encode_assemble (c : Config) (op : Opcode) (opA opB : Byte) :
    encode c (assemble op opA opB) = opcodeByte c op :: [opA, opB].take op.format.ops := by
  rw [encode, assemble_opcode, assemble_operands]

/-- The length of an instruction is that of its format (R46, R47). -/
theorem length_encode (c : Config) (i : Instr) : (encode c i).length = i.opcode.format.ops + 1 := by
  cases i <;> rfl

/-- An instruction is its table entry with its operand bytes, which `takeOperands` finds in front of any bytes. -/
theorem takeOperands_operands (i : Instr) (rest : List Byte) : ∃ opA opB,
    takeOperands i.opcode.format (i.operands ++ rest) = some (opA, opB, rest) ∧ assemble i.opcode opA opB = i := by
  cases i <;> exact ⟨_, _, rfl, rfl⟩

/-- `takeOperands` takes as many bytes as its format has operands (R46). -/
theorem takeOperands_eq_some {f : Format} (h : takeOperands f bytes = some (opA, opB, rest)) :
    bytes = [opA, opB].take f.ops ++ rest := by
  unfold takeOperands at h
  split at h <;> cases h <;> rfl

/-- With distinct opcode bytes, an entry's byte and the operand bytes behind it decode to the entry's instruction. -/
theorem decode_opcodeByte_cons (hc : c.Wf) (h : takeOperands op.format bytes = some (opA, opB, rest)) :
    decode c (opcodeByte c op :: bytes) = .ok (assemble op opA opB, rest) := by
  simp [decode, dispatch_opcodeByte hc.1 op, h]

/-- All the decoder can answer: the instruction of an entry whose byte leads, with the operand bytes taken behind it. -/
theorem decode_eq_ok (h : decode c bytes = .ok (i, rest)) : ∃ op tail opA opB, bytes = opcodeByte c op :: tail ∧
    takeOperands op.format tail = some (opA, opB, rest) ∧ i = assemble op opA opB := by
  unfold decode at h
  split at h
  · cases h
  · next b tail =>
    split at h
    · cases h
    · next op hd =>
      split at h
      · cases h
      · next opA opB rest' ht =>
        cases h
        exact ⟨op, tail, opA, opB, by rw [opcodeByte_of_dispatch hd], ht, rfl⟩

/-- Settles O2: the table finds the entry of the first byte, and `takeOperands` the operand bytes behind it. -/
theorem decodeInvertsEncode : Obligations.DecodeInvertsEncode := by
  intro c hc i rest
  obtain ⟨opA, opB, htake, hi⟩ := takeOperands_operands i rest
  exact (decode_opcodeByte_cons hc htake).trans (by rw [hi])

/-- Settles O3: the bytes decoded are the entry's byte and the operand bytes taken, which encode the instruction read. -/
theorem encodeInvertsDecode : Obligations.EncodeInvertsDecode := by
  intro c bytes rest i h
  have hops := Machine.ops_le_two i.opcode
  refine ⟨?_, by rw [length_encode]; omega, by rw [length_encode]; omega⟩
  obtain ⟨op, tail, opA, opB, rfl, htake, rfl⟩ := decode_eq_ok h
  rw [encode_assemble, takeOperands_eq_some htake, List.cons_append]

/-- A word whose bytes begin with the encoding of an instruction decodes to it. -/
theorem decodeTableWord_of_encode {nbits w : Nat} (h : tableWordBytes nbits w = encode hardware i ++ rest) :
    decodeTableWord nbits w = some i := by
  rw [decodeTableWord, h, decodeInvertsEncode hardware hardware_wf]

/-- Settles O1: each word's bytes are the encoding of its instruction, with zeros up to three bytes. -/
theorem knownWordsDecode : Obligations.KnownWordsDecode := by
  unfold Obligations.KnownWordsDecode
  and_intros <;> exact decodeTableWord_of_encode rfl

end Sys2Proof
end

section
/-! Illegal opcode bytes (spec/30_encoding.md R54; spec/60_exceptions.md R112). -/

namespace Sys2Proof.Machine

/-- A byte value has a table entry exactly if it is the byte of one of the thirteen (R53). -/
theorem dispatch_isSome_iff {c : Config} {b : Byte} :
    (dispatchTable c b).isSome ↔ ∃ op, opcodeByte c op = b := by
  simp [← Option.ne_none_iff_isSome, dispatch_none_iff]

/-- The byte values with an entry are those of the thirteen opcode bytes, each once. -/
theorem legalBytes_perm_opcodeBytes {c : Config} (hc : c.Wf) :
    ((List.range 256).filter fun n => (dispatchTable c (BitVec.ofNat 8 n)).isSome).Perm
      ((allOpcodes.map (opcodeByte c)).map BitVec.toNat) := by
  refine (List.perm_ext_iff_of_nodup (List.nodup_range.filter _)
    (hc.1.map fun _ _ => BitVec.eq_of_toNat_eq)).mpr fun n => ?_
  simp only [List.mem_filter, List.mem_range, dispatch_isSome_iff, List.mem_map, mem_allOpcodes, true_and]
  constructor
  · rintro ⟨hn, hop⟩
    exact ⟨BitVec.ofNat 8 n, hop, by rw [BitVec.toNat_ofNat, Nat.mod_eq_of_lt hn]⟩
  · rintro ⟨b, hop, rfl⟩
    exact ⟨b.isLt, by simpa using hop⟩

/-- Thirteen of the 256 byte values have an entry, so 243 have none (R54). -/
theorem countP_illegal {c : Config} (hc : c.Wf) :
    ((List.range 256).countP fun n => (dispatchTable c (BitVec.ofNat 8 n)).isNone) = 243 := by
  have hlegal := (legalBytes_perm_opcodeBytes hc).length_eq
  have hsplit := List.length_eq_countP_add_countP (l := List.range 256)
    fun n => (dispatchTable c (BitVec.ofNat 8 n)).isSome
  simp only [← List.countP_eq_length_filter, List.length_map, show allOpcodes.length = 13 from rfl] at hlegal
  simp only [List.length_range, hlegal, Bool.not_eq_true, Option.isSome_eq_false_iff, Bool.decide_eq_true] at hsplit
  omega

/-- Settles O4: this hardware's thirteen bytes are distinct, which gives the count; the fetch of a byte without an
entry raises its error, and a faulted machine has no step. -/
theorem illegalOpcodeFaults : Obligations.IllegalOpcodeFaults :=
  ⟨countP_illegal hardware_wf, by decide, by decide, fun _ _ => dispatch_none_iff, fun s hrun hpc hnone =>
    ⟨step_of_fetch_error hrun (fetch_illegal rfl hpc hnone), rfl⟩⟩

end Sys2Proof.Machine
end

section
/-! The loop (spec/40_loop_dispatch_hlt.md R60, R66, R67): a running machine steps and no other does; HLT; the states a run
reaches. -/

namespace Sys2Proof.Machine

variable {c : Config} {s t : State}

/-- Executing an instruction makes a change of the state, so it always gives a next one. -/
theorem execIn_completes (c : Config) (i : Instr) (s : State) : ∃ t, execIn c i s = .next t := by
  obtain ⟨d, hd, -⟩ := execIn_sameChange (m := s.mem) (f := s.fl) (o := s.out) c i s (.inr rfl) (.inr rfl)
  exact ⟨d.apply s, hd⟩

theorem stepIn_of_fetch_ok {i : Instr} (hr : s.run = .running) (hf : fetch c s = .ok i) :
    stepIn c s = execIn c i s := by
  simp [stepIn, hr, hf]

theorem stepIn_of_fetch_error {e : FatalError} (hr : s.run = .running) (hf : fetch c s = .error e) :
    stepIn c s = .next (raise e s) := by
  simp [stepIn, hr, hf]

theorem stepIn_completes (c : Config) (hr : s.run = .running) : ∃ t, stepIn c s = .next t := by
  cases hf : fetch c s with
  | ok i => rw [stepIn_of_fetch_ok hr hf]; exact execIn_completes c i s
  | error e => exact ⟨_, stepIn_of_fetch_error hr hf⟩

theorem step_of_stopped (hr : s.run ≠ .running) : step s = .fault .stopped := by
  cases h : s.run with
  | running => exact absurd h hr
  | halted => simp [step, h]
  | faulted e => simp [step, h]

/-- Settles O18: a running machine's step completes, a stopped machine's is the stop, and `hostStep` reports it. -/
theorem stepExistsWhileRunning : Obligations.StepExistsWhileRunning := by
  refine fun s => ⟨fun hr => ?_, fun hr => ?_⟩
  · obtain ⟨t, ht⟩ := stepIn_completes hardware hr
    rw [← step_eq_stepIn] at ht
    exact ⟨t, ht, by simp [hostStep, ht]⟩
  · have hstop := step_of_stopped hr
    exact ⟨hstop, by simp [hostStep, hstop]⟩

/-- Settles O51, by induction on the run: its start state meets the invariant and every step keeps it. -/
theorem everyRunKeepsInvariant : Obligations.EveryRunKeepsInvariant := by
  intro image s t hboot hrun
  induction hrun with
  | refl => exact bootMeetsInvariant.2 image s hboot
  | step _ hstep ih => exact stepKeepsInvariant _ _ ih hstep

theorem dispatch_hlt_byte : dispatchTable hardware 0x01 = some .hlt :=
  dispatch_opcodeByte hardware_wf.1 .hlt

/-- Settles O5: HLT has no operand, so its byte is fetched at every address of memory. -/
theorem hltHalts : Obligations.HltHalts := by
  refine ⟨fun _ => rfl, fun s => ⟨rfl, rfl, fun hr hpc hcell => ?_⟩⟩
  have hd : dispatchTable hardware (cell s.pc s) = some .hlt := hcell ▸ dispatch_hlt_byte
  exact step_of_fetch_ok hr (fetch_suppress rfl hd hpc)

end Sys2Proof.Machine
end

section
/-! The fetch (spec/40_loop_dispatch_hlt.md R61, R62): at the top of memory, under both settings of `OVERFETCH`, and against
the decoder. -/

namespace Sys2Proof.Machine

variable {c : Config} {s : State}

theorem fetch_of_pc_gt (hpc : 255 < s.pc) : fetch c s = .error (.outOfBounds .mem s.pc) := by
  cases hc : c.overfetch <;> simp [fetch, hc, memRead_of_gt hpc]

/-- Under `STRICT3` the three reads come first, so nothing is fetched at the last two addresses (R62). -/
theorem fetch_strict3_top (hc : c.overfetch = .strict3) (hpc : s.pc = 254 ∨ s.pc = 255) :
    fetch c s = .error (.outOfBounds .mem 256) := by
  rcases hpc with hpc | hpc <;> simp [fetch, hc, hpc, memRead]

/-- Settles O20: the law of the fetch in each case; under `SUPPRESS` exactly the bytes consumed must lie in memory. -/
theorem fetchAtTopOfMemory : Obligations.FetchAtTopOfMemory := by
  intro s hr
  exact ⟨fun hpc => step_of_fetch_error hr (fetch_of_pc_gt hpc),
    fun _ hd hpc hgt => step_of_fetch_error hr (fetch_past_end hpc hd hgt),
    fun _ hd _ hfit => step_of_fetch_ok hr (fetch_suppress rfl hd hfit),
    fun hd hpc => step_of_fetch_error hr (fetch_illegal rfl hpc hd),
    fun _ hc hpc => stepIn_of_fetch_error hr (fetch_strict3_top hc hpc)⟩

/-! ### Where three bytes lie in memory -/

theorem fetch_eq_of_three_bytes (hle : s.pc + 2 ≤ 255) : fetch c s =
    (lookup c (cell s.pc s)).map fun op => assemble op (cell (s.pc + 1) s) (cell (s.pc + 2) s) := by
  cases hd : dispatchTable c (cell s.pc s) with
  | some op =>
    have hops := ops_le_two op
    rw [lookup_some hd]
    cases hc : c.overfetch with
    | suppress => exact fetch_suppress hc hd (by omega)
    | strict3 => exact fetch_strict3 hc hd hle
  | none =>
    rw [lookup_none hd]
    cases hc : c.overfetch with
    | suppress => exact fetch_illegal hc (by omega) hd
    | strict3 =>
      simp [fetch, hc, memRead_of_le (show s.pc ≤ 255 by omega), memRead_of_le (show s.pc + 1 ≤ 255 by omega),
        memRead_of_le hle, lookup_none hd, Except.map]

/-- No handler looks at `OVERFETCH`. -/
theorem execIn_overfetch (c : Config) (o : Overfetch) (i : Instr) (s : State) :
    execIn { c with overfetch := o } i s = execIn c i s := by
  cases i <;> rfl

theorem stepIn_overfetch (c : Config) (o : Overfetch) (hle : s.pc + 2 ≤ 255) :
    stepIn { c with overfetch := o } s = stepIn c s := by
  have hfetch : fetch { c with overfetch := o } s = fetch c s := by
    rw [fetch_eq_of_three_bytes hle, fetch_eq_of_three_bytes hle]; rfl
  simp only [stepIn, hfetch, execIn_overfetch]

/-- Settles O21: each setting steps as the configuration with any other does. -/
theorem overfetchUnobservable : Obligations.OverfetchUnobservable :=
  fun c _ hle => (stepIn_overfetch c .strict3 hle).trans (stepIn_overfetch c .suppress hle).symm

/-! ### The fetch is the decoder's reading of memory -/

/-- The bytes at `pc` are those of three addresses, cut off at the end of memory. -/
theorem codeBytes_eq_take (s : State) :
    codeBytes s = [cell s.pc s, cell (s.pc + 1) s, cell (s.pc + 2) s].take (256 - s.pc) := by
  rcases (by omega : s.pc ≤ 253 ∨ s.pc = 254 ∨ s.pc = 255 ∨ 255 < s.pc) with h | h | h | h
  · rw [List.take_of_length_le (by simp; omega)]
    simp [codeBytes, show s.pc ≤ 255 by omega, show s.pc + 1 ≤ 255 by omega, show s.pc + 2 ≤ 255 by omega]
  · simp [codeBytes, h]
  · simp [codeBytes, h]
  · simp [codeBytes, show ¬ s.pc ≤ 255 by omega, show ¬ s.pc + 1 ≤ 255 by omega, show ¬ s.pc + 2 ≤ 255 by omega,
      Nat.sub_eq_zero_of_le h]

/-- With distinct opcode bytes, an instruction is known by its encoding. -/
theorem encode_injective (hc : c.Wf) {i j : Instr} (h : encode c i = encode c j) : i = j := by
  have hi := decodeInvertsEncode c hc i []
  rw [h, decodeInvertsEncode c hc j []] at hi
  cases hi
  rfl

/-- Under `SUPPRESS`, an instruction whose encoding stands at `pc` is fetched. -/
theorem fetch_of_encode_prefix (hw : c.Wf) (hc : c.overfetch = .suppress) {i : Instr}
    (h : encode c i <+: codeBytes s) : fetch c s = .ok i := by
  have hops := ops_le_two i.opcode
  have hlen := h.length_le
  rw [codeBytes_eq_take] at h hlen
  simp only [length_encode, List.length_take, List.length_cons, List.length_nil] at hlen
  have hfit : s.pc + i.opcode.format.ops ≤ 255 := by omega
  have hbytes : encode c i = cell s.pc s :: [cell (s.pc + 1) s, cell (s.pc + 2) s].take i.opcode.format.ops := by
    have htake := List.prefix_iff_eq_take.mp h
    rwa [length_encode, List.take_take, Nat.min_eq_left (by omega), List.take_succ_cons] at htake
  have hopc : opcodeByte c i.opcode = cell s.pc s := (List.cons.inj hbytes).1
  have hi : i = assemble i.opcode (cell (s.pc + 1) s) (cell (s.pc + 2) s) :=
    encode_injective hw (by rw [encode_assemble, hopc, hbytes])
  have hd : dispatchTable c (cell s.pc s) = some i.opcode := hopc ▸ dispatch_opcodeByte hw.1 i.opcode
  rw [fetch_suppress hc hd hfit, ← hi]

/-- Settles O19: what decodes is the encoding of the instruction read, so the fetch gives that instruction. -/
theorem stepRunsDecoded : Obligations.StepRunsDecoded := by
  intro s i rest hr hdec
  have hbytes := (encodeInvertsDecode hardware (codeBytes s) rest i hdec).1
  exact step_of_fetch_ok hr (fetch_of_encode_prefix hardware_wf rfl ⟨rest, hbytes.symm⟩)

end Sys2Proof.Machine
end

section
/-! Where each handler leaves `pc` and `run` (spec/40_loop_dispatch_hlt.md R64, R68). -/

namespace Sys2Proof.Machine

variable {c : Config} {s t : State} {i : Instr}

/-- The instructions that may go to the address in register `r`. -/
def JumpsTo (r : Fin 8) (i : Instr) : Prop :=
  i = .jmp (regByte r) ∨ i = .call (regByte r) ∨ i = .jeq (regByte r) ∨ i = .jne (regByte r)

/-- Not one of JMP, CALL and RET, which always transfer control. -/
def NotTransfer (i : Instr) : Prop := (∀ x, i ≠ .jmp x) ∧ (∀ x, i ≠ .call x) ∧ i ≠ .ret

/-- Which of the targets an effect other than HLT's gives `pc`: behind the instruction, the register its operand names, or
the byte at SP. -/
theorem effect_target (h : Effect c s t i) (hi : i ≠ .hlt) :
    (NotTransfer i ∧ t.pc = s.pc + (encode c i).length) ∨ (∃ r, JumpsTo r i ∧ t.pc = readReg r t) ∨
      (i = .ret ∧ t.pc = (cell (sp s) s).toNat) := by
  cases i <;> simp only [Effect] at h
  case hlt => exact absurd rfl hi
  case jmp => obtain ⟨r, rfl, rfl⟩ := h; exact .inr (.inl ⟨r, .inl rfl, rfl⟩)
  case call => obtain ⟨r, a, rfl, _, _, _, rfl⟩ := h; exact .inr (.inl ⟨r, .inr (.inl rfl), rfl⟩)
  case ret => obtain ⟨p, _, _, rfl⟩ := h; exact .inr (.inr ⟨rfl, rfl⟩)
  case jeq =>
    obtain ⟨r, rfl, rfl⟩ := h
    split
    · exact .inr (.inl ⟨r, .inr (.inr (.inl rfl)), rfl⟩)
    · exact .inl ⟨by simp [NotTransfer], rfl⟩
  case jne =>
    obtain ⟨r, rfl, rfl⟩ := h
    split
    · exact .inl ⟨by simp [NotTransfer], rfl⟩
    · exact .inr (.inl ⟨r, .inr (.inr (.inr rfl)), rfl⟩)
  all_goals refine .inl ⟨by simp [NotTransfer], ?_⟩
  case ldi => obtain ⟨r, _, rfl⟩ := h; rfl
  case prn => obtain ⟨r, _, rfl⟩ := h; rfl
  case add => obtain ⟨a, b, _, _, rfl⟩ := h; rfl
  case mul => obtain ⟨a, b, _, _, rfl⟩ := h; rfl
  case cmp => obtain ⟨a, b, _, _, rfl⟩ := h; rfl
  case push => obtain ⟨r, a, _, _, _, _, rfl⟩ := h; rfl
  case pop => obtain ⟨r, p, _, _, _, rfl⟩ := h; rfl

/-- An effect from `RUNNING` is HLT's and halts, or is not HLT's and stays `RUNNING`. -/
theorem effect_run_of_running (hr : s.run = .running) (h : Effect c s t i) :
    (i = .hlt ∧ t = { s with run := .halted }) ∨ (i ≠ .hlt ∧ t.run = .running) := by
  by_cases hi : i = .hlt
  · subst hi; exact .inl ⟨rfl, h⟩
  · exact .inr ⟨hi, ((effect_run h).resolve_right fun hlt => hi hlt.1).trans hr⟩

/-- Settles O23: a handler halts as HLT, goes on at one of its targets, or raises an error. -/
theorem handlerSetsPcOrRun : Obligations.HandlerSetsPcOrRun := by
  refine fun i s hr => ⟨step_of_fetch_ok hr, fun t h => ?_⟩
  rcases exec_next h with h | ⟨e, -, rfl⟩
  · rcases effect_run_of_running hr h with ⟨rfl, rfl⟩ | ⟨hi, htr⟩
    · exact ⟨fun _ => ⟨rfl, rfl⟩, nofun, nofun⟩
    · simp only [htr]
      refine ⟨nofun, nofun, fun _ => ⟨hi, (effect_target h hi).imp_left ?_⟩⟩
      exact fun ⟨⟨hjmp, hcall, hret⟩, hpc⟩ => ⟨hjmp, hcall, hret, hpc⟩
  · exact ⟨nofun, fun e' he => by cases he; rfl, nofun⟩

end Sys2Proof.Machine
end

section
/-! LDI and PRN (spec/41_ldi_prn.md R75, R76). -/

namespace Sys2Proof.Machine

variable {s : State}

/-! ### A handler that begins by checking its register operand (spec/10_state.md R15) -/

theorem settle_regOperand_regByte (r : Fin 8) (f : Fin 8 → Except FatalError State) :
    settle s (regOperand (regByte r) >>= f) = settle s (f r) := by
  rw [regOperand_regByte, bind_ok]

theorem settle_regOperand_of_gt {x : Byte} (hx : 7 < x.toNat) (f : Fin 8 → Except FatalError State) :
    settle s (regOperand x >>= f) = .next (raise (.outOfBounds .reg x.toNat) s) := by
  rw [regOperand_of_gt hx, bind_error, settle_error]

/-! ### The two instructions -/

/-- Settles O6: a byte that names a register passes the operand check and LDI writes that register; any other raises. -/
theorem ldiLoadsImmediate : Obligations.LdiLoadsImmediate :=
  ⟨fun _ _ _ => rfl, fun _ _ =>
    ⟨fun r => settle_regOperand_regByte r _, fun _ hx => settle_regOperand_of_gt hx _⟩⟩

/-- Settles O7: a byte that names a register passes the operand check and PRN emits that register; any other raises. -/
theorem prnEmits : Obligations.PrnEmits :=
  ⟨fun _ _ => rfl, fun _ =>
    ⟨fun r => settle_regOperand_regByte r _, fun _ hx => settle_regOperand_of_gt hx _⟩⟩

end Sys2Proof.Machine
end

section
/-! The arithmetic/compare unit and ADD, MUL, CMP (spec/42_alu.md R80 to R85; spec/60_exceptions.md R113). -/

namespace Sys2Proof.Machine

variable {c : Config} {s t : State}

theorem normResult_eq_ite (c : Config) (v : Nat) :
    normResult c v = if c.regMode = .wrap8 then v % 256 else v := by
  cases hc : c.regMode with
  | wrap8 => exact normResult_wrap8 hc v
  | wide => exact normResult_wide hc v

/-- Settles O31: the law of the unit for each operation, and of its two index checks. -/
theorem aluUnit : Obligations.AluUnit := by
  intro c s
  simp only [← normResult_eq_ite]
  exact ⟨fun a b => ⟨alu_regs c .add a b s, alu_regs c .mul a b s, alu_regs c .cmp a b s,
      fun n => alu_regs c (.other n) a b s⟩,
    fun op _ y hx => alu_bad_a c op y hx s, fun op a _ hy => alu_bad_b c op a hy s⟩

/-! ### A handler that drives the unit and then advances by three -/

theorem settle_alu_regs {op : AluOp} {a b : Fin 8} (h : alu c op (regByte a) (regByte b) s = .ok t) :
    settle s (alu c op (regByte a) (regByte b) s >>= fun u => .ok (advance 3 u)) = .next (advance 3 t) := by
  rw [h, bind_ok, settle_ok]

theorem settle_alu_bad_a (c : Config) (op : AluOp) {x : Byte} (y : Byte) (hx : 7 < x.toNat) (s : State) :
    settle s (alu c op x y s >>= fun u => .ok (advance 3 u)) = .next (raise (.outOfBounds .reg x.toNat) s) := by
  rw [alu_bad_a c op y hx s, bind_error, settle_error]

theorem settle_alu_bad_b (c : Config) (op : AluOp) (a : Fin 8) {y : Byte} (hy : 7 < y.toNat) (s : State) :
    settle s (alu c op (regByte a) y s >>= fun u => .ok (advance 3 u)) =
      .next (raise (.outOfBounds .reg y.toNat) s) := by
  rw [alu_bad_b c op a hy s, bind_error, settle_error]

/-! ### ADD and MUL -/

theorem execIn_add_regs (c : Config) (a b : Fin 8) (s : State) : execIn c (.add (regByte a) (regByte b)) s =
    .next (advance 3 (writeReg a (normResult c (readReg a s + readReg b s)) s)) :=
  settle_alu_regs (alu_regs c .add a b s)

theorem execIn_mul_regs (c : Config) (a b : Fin 8) (s : State) : execIn c (.mul (regByte a) (regByte b)) s =
    .next (advance 3 (writeReg a (normResult c (readReg a s * readReg b s)) s)) :=
  settle_alu_regs (alu_regs c .mul a b s)

/-- Settles O8: on two registers the unit's sum, reduced or exact by the register mode; else the first bad index. -/
theorem addSums : Obligations.AddSums := by
  refine ⟨fun _ _ _ => rfl, fun s => ⟨fun a b => execIn_add_regs hardware a b s, fun c a b hc => ?_,
    fun _ y hx => settle_alu_bad_a hardware .add y hx s, fun a _ hy => settle_alu_bad_b hardware .add a hy s⟩⟩
  rw [execIn_add_regs, normResult_wide hc]
  rfl

/-- Settles O9: on two registers the unit's product, reduced or exact by the register mode; else the first bad index. -/
theorem mulMultiplies : Obligations.MulMultiplies := by
  refine ⟨fun _ _ _ => rfl, fun s => ⟨fun a b => execIn_mul_regs hardware a b s, fun c a b hc => ?_,
    fun _ y hx => settle_alu_bad_a hardware .mul y hx s, fun a _ hy => settle_alu_bad_b hardware .mul a hy s⟩⟩
  rw [execIn_mul_regs, normResult_wide hc]
  rfl

/-! ### CMP -/

theorem compareFlags_eq_flLess_iff {u v : Nat} : compareFlags u v = flLess ↔ u < v := by
  unfold compareFlags
  split_ifs with hlt hgt
  · simp [hlt]
  · simp [hlt, flLess, flGreater]
  · simp [hlt, flLess, flEqual]

theorem compareFlags_eq_flGreater_iff {u v : Nat} : compareFlags u v = flGreater ↔ v < u := by
  unfold compareFlags
  split_ifs with hlt hgt
  · simp [Nat.lt_asymm hlt, flLess, flGreater]
  · simp [hgt]
  · simp [hgt, flGreater, flEqual]

theorem compareFlags_eq_flEqual_iff {u v : Nat} : compareFlags u v = flEqual ↔ u = v := by
  unfold compareFlags
  split_ifs with hlt hgt
  · simp [Nat.ne_of_lt hlt, flLess, flEqual]
  · simp [Nat.ne_of_gt hgt, flGreater, flEqual]
  · simp [show u = v by omega]

theorem execIn_cmp_regs (c : Config) (a b : Fin 8) (s : State) : execIn c (.cmp (regByte a) (regByte b)) s =
    .next (advance 3 { s with fl := compareFlags (readReg a s) (readReg b s) }) :=
  settle_alu_regs (alu_regs c .cmp a b s)

/-- CMP on this hardware, once the pattern it writes is known. -/
theorem exec_cmp_of_flags {a b : Fin 8} {f : BitVec 3} (h : compareFlags (readReg a s) (readReg b s) = f) :
    exec (.cmp (regByte a) (regByte b)) s = .next { s with fl := f, pc := s.pc + 3 } := by
  rw [exec_eq_execIn, execIn_cmp_regs, h]
  rfl

/-- Settles O10: on two registers the pattern of the comparison; else the first bad index. -/
theorem cmpSetsFlags : Obligations.CmpSetsFlags :=
  ⟨fun _ _ _ => rfl, fun s => ⟨fun _ _ =>
      ⟨fun hlt => exec_cmp_of_flags (compareFlags_eq_flLess_iff.mpr hlt),
        fun hgt => exec_cmp_of_flags (compareFlags_eq_flGreater_iff.mpr hgt),
        fun heq => exec_cmp_of_flags (compareFlags_eq_flEqual_iff.mpr heq)⟩,
    fun _ _ _ => rfl,
    fun _ y hx => settle_alu_bad_a hardware .cmp y hx s, fun a _ hy => settle_alu_bad_b hardware .cmp a hy s⟩⟩

/-! ### Exchanged operands -/

theorem readReg_add {a b : Fin 8} (h : exec (.add (regByte a) (regByte b)) s = .next t) :
    readReg a t = normResult hardware (readReg a s + readReg b s) := by
  rw [exec_eq_execIn, execIn_add_regs] at h
  cases h
  rw [readReg_advance, readReg_writeReg_self]

theorem readReg_mul {a b : Fin 8} (h : exec (.mul (regByte a) (regByte b)) s = .next t) :
    readReg a t = normResult hardware (readReg a s * readReg b s) := by
  rw [exec_eq_execIn, execIn_mul_regs] at h
  cases h
  rw [readReg_advance, readReg_writeReg_self]

theorem fl_cmp {a b : Fin 8} (h : exec (.cmp (regByte a) (regByte b)) s = .next t) :
    t.fl = compareFlags (readReg a s) (readReg b s) := by
  rw [exec_eq_execIn, execIn_cmp_regs] at h
  cases h
  rfl

/-- Settles O32: sum and product commute, and each pattern of CMP stands for one order of the two values. -/
theorem aluExchangesOperands : Obligations.AluExchangesOperands := by
  refine fun a b s t u => ⟨fun ht hu => ?_, fun ht hu => ?_, fun ht hu => ?_⟩
  · rw [readReg_add ht, readReg_add hu, Nat.add_comm]
  · rw [readReg_mul ht, readReg_mul hu, Nat.mul_comm]
  · rw [fl_cmp ht, fl_cmp hu]
    exact ⟨compareFlags_eq_flLess_iff.trans compareFlags_eq_flGreater_iff.symm,
      compareFlags_eq_flEqual_iff.trans (eq_comm.trans compareFlags_eq_flEqual_iff.symm)⟩

/-! ### No program makes the unit raise -/

theorem push_ne_unsupportedALU (v n : Nat) : push c v s ≠ .error (.unsupportedALUOperation n) := by
  intro h
  rcases push_error h with ⟨-, he⟩ | ⟨-, -, he⟩ | ⟨_, -, -, he⟩ <;> cases he

theorem pop_ne_unsupportedALU (n : Nat) : pop c s ≠ .error (.unsupportedALUOperation n) := by
  intro h
  rcases pop_error h with ⟨-, -, he⟩ | ⟨-, he⟩ <;> cases he

theorem fetch_ne_unsupportedALU (n : Nat) : fetch c s ≠ .error (.unsupportedALUOperation n) := by
  intro h
  rcases fetch_eq_error h with ⟨-, he⟩ | ⟨-, -, he⟩ | ⟨-, -, he⟩ <;> cases he

theorem not_canRaise_unsupportedALU (i : Instr) (n : Nat) : ¬ CanRaise c s i (.unsupportedALUOperation n) := by
  rintro (⟨_, -, -, he⟩ | ⟨_, -, -, he⟩ | ⟨_, -, he⟩ | ⟨_, -, -, he⟩ | ⟨-, he⟩)
  · cases he
  · cases he
  · exact push_ne_unsupportedALU _ n he
  · exact push_ne_unsupportedALU _ n he
  · exact pop_ne_unsupportedALU n he

theorem stepIn_run_ne_unsupportedALU (h : stepIn c s = .next t) (n : Nat) :
    t.run ≠ .faulted (.unsupportedALUOperation n) := by
  intro hn
  obtain ⟨hr, ⟨i, -, h⟩ | ⟨e, he, rfl⟩⟩ := stepIn_next h
  · rcases execIn_next h with h | ⟨e, he, rfl⟩
    · rcases effect_run_of_running hr h with ⟨-, rfl⟩ | ⟨-, htr⟩
      · cases hn
      · rw [htr] at hn; cases hn
    · cases hn; exact not_canRaise_unsupportedALU i n he
  · cases hn; exact fetch_ne_unsupportedALU n he

/-- Settles O27: the unit answers such a selector with the error, which no fetch, no check and no stack primitive raises. -/
theorem unsupportedAluUnreachable : Obligations.UnsupportedAluUnreachable :=
  ⟨fun c n a b s => alu_regs c (.other n) a b s, fun _ _ _ n h => stepIn_run_ne_unsupportedALU h n⟩

end Sys2Proof.Machine
end

section
/-! The stack (spec/43_stack.md R90 to R95): `push` and `pop` under both stack policies, PUSH and POP, and the frames of
the four stack instructions. -/

namespace Sys2Proof.Machine

variable {c : Config} {s t : State}

/-! ### `push` and `pop` under `STACK_POLICY = FAULT` -/

theorem push_fault_zero {v : Nat} (hc : c.stackPolicy = .fault) (hv : v ≤ 255) (h0 : sp s = 0) :
    push c v s = .error (.stackOverflow 0) :=
  push_stack hv (pushAddr_fault_zero hc h0)

theorem push_fault_gt {v : Nat} (hc : c.stackPolicy = .fault) (hv : v ≤ 255) (hgt : 256 < sp s) :
    push c v s = .error (.outOfBounds .mem (sp s - 1)) :=
  push_address hv (pushAddr_fault hc (by omega)) (by omega)

/-- Settles O33: each check fails in its turn, or SP - 1 is an address and the byte is written there. -/
theorem pushPrimitive : Obligations.PushPrimitive :=
  fun _ _ _ hc => ⟨push_value, push_fault_zero hc, push_fault_gt hc,
    fun hv _ _ => push_of hv (pushAddr_fault hc (by omega)) (by omega)⟩

theorem spMaxPop_eq_ite (c : Config) : spMaxPop c = if c.regMode = .wrap8 then 254 else 255 := by
  cases hc : c.regMode <;> simp [spMaxPop, hc]

theorem spMaxPop_wide (hc : c.regMode = .wide) : spMaxPop c = 255 := by
  simp [spMaxPop, hc]

theorem spMaxPop_le (c : Config) : spMaxPop c ≤ 255 := by
  rw [spMaxPop_eq_ite]
  split <;> omega

theorem pop_fault (hc : c.stackPolicy = .fault) (h : sp s ≤ spMaxPop c) :
    pop c s = .ok (cell (sp s) s, setSp (sp s + 1) s) :=
  pop_of (popSp_fault hc h) (h.trans (spMaxPop_le c))

theorem pop_fault_gt (hc : c.stackPolicy = .fault) (h : spMaxPop c < sp s) :
    pop c s = .error (.stackUnderflow (sp s)) :=
  pop_stack (popSp_fault_gt hc h)

/-- From byte registers the address of a push is at most 254 (R90). -/
theorem push_cell_255 (hc : c.stackPolicy = .fault) (hs : sp s ≤ 255) {v : Nat} (h : push c v s = .ok t) :
    cell 255 t = cell 255 s := by
  obtain ⟨a, ha, -, -, rfl⟩ := push_ok h
  have hne : sp s ≠ 0 := fun h0 => by rw [pushAddr_fault_zero hc h0] at ha; cases ha
  rw [pushAddr_fault hc hne] at ha
  cases ha
  exact memGet_memSet_ne (by omega) _ s.mem

/-- A pop of a `WRAP8` machine reads an address of at most 254 (R91). -/
theorem pop_withCell_255 (hc : c.stackPolicy = .fault) (hm : c.regMode = .wrap8) (w : Byte) {r : Byte × State}
    (h : pop c s = .ok r) : ∃ t', pop c { s with mem := memSet 255 w s.mem } = .ok (r.1, t') := by
  have hmax : spMaxPop c = 254 := by simp [spMaxPop, hm]
  by_cases hgt : spMaxPop c < sp s
  · rw [pop_fault_gt hc hgt] at h; cases h
  · have hle : sp s ≤ spMaxPop c := Nat.le_of_not_lt hgt
    have hcell : cell (sp s) { s with mem := memSet 255 w s.mem } = cell (sp s) s :=
      memGet_memSet_ne (by omega) w s.mem
    rw [pop_fault hc hle, ← hcell] at h
    cases h
    exact ⟨_, pop_fault (s := { s with mem := memSet 255 w s.mem }) hc hle⟩

/-- Settles O34: the range of SP decides, and neither primitive gets to cell 255. -/
theorem popPrimitive : Obligations.PopPrimitive := by
  intro c s hc
  rw [← spMaxPop_eq_ite]
  exact ⟨pop_fault_gt hc, pop_fault hc, fun hm hs =>
    ⟨fun _ _ => push_cell_255 hc (hs spIndex), fun w _ => pop_withCell_255 hc hm w⟩⟩

/-! ### `push` and `pop` under `STACK_POLICY = WRAP` -/

/-- Settles O35: on a byte, SP - 1 and SP + 1 modulo 256 wrap at one end each, and both are addresses. -/
theorem wrapPolicy : Obligations.WrapPolicy := by
  intro c s _ hc hs
  have hsp : sp s ≤ 255 := hs spIndex
  have hpush : (sp s + 255) % 256 = if sp s = 0 then 255 else sp s - 1 := by split <;> omega
  have hpop : (sp s + 1) % 256 = if sp s = 255 then 0 else sp s + 1 := by split <;> omega
  refine ⟨fun v hv => ⟨_, rfl, ?_⟩, ?_⟩
  · rw [← hpush]
    exact push_of hv (pushAddr_wrap hc) (by omega)
  · rw [← hpop]
    exact pop_of (popSp_wrap hc) hsp

/-! ### PUSH -/

theorem execIn_push_error {r : Fin 8} {e : FatalError} (h : push c (readReg r s) s = .error e) :
    execIn c (.push (regByte r)) s = .next (raise e s) := by
  refine (settle_regOperand_regByte r _).trans ?_
  rw [h, bind_error, settle_error]

/-- `push` looks at no parameter but `STACK_POLICY`. -/
theorem push_congr {c' : Config} (h : c.stackPolicy = c'.stackPolicy) : push c = push c' := by
  funext v s
  simp only [push, pushAddr, h]

theorem execIn_push_congr {c' : Config} (h : c.stackPolicy = c'.stackPolicy) (x : Byte) (s : State) :
    execIn c (.push x) s = execIn c' (.push x) s := by
  simp only [execIn, pushIn, push_congr h]

/-- Settles O11: on a register what `push` answers, settled; any other operand byte raises. -/
theorem pushStores : Obligations.PushStores :=
  ⟨fun _ _ => rfl, fun s => ⟨fun _ hv _ hle => exec_push hv (by omega) hle,
    fun _ hx => settle_regOperand_of_gt hx _,
    fun _ hv => execIn_push_error (c := hardware) (push_value hv),
    fun _ hv h0 => execIn_push_error (c := hardware) (push_fault_zero rfl hv h0),
    fun _ hv hgt => execIn_push_error (c := hardware) (push_fault_gt rfl hv hgt),
    fun _ x hc => execIn_push_congr (c' := hardware) hc x s⟩⟩

/-! ### POP -/

theorem execIn_pop_ok (r : Fin 8) {v : Byte} (h : pop c s = .ok (v, t)) :
    execIn c (.pop (regByte r)) s = .next (advance 2 (writeReg r v.toNat t)) := by
  refine (settle_regOperand_regByte r _).trans ?_
  rw [h, bind_ok, settle_ok]

theorem execIn_pop_error (r : Fin 8) {e : FatalError} (h : pop c s = .error e) :
    execIn c (.pop (regByte r)) s = .next (raise e s) := by
  refine (settle_regOperand_regByte r _).trans ?_
  rw [h, bind_error, settle_error]

/-- POP where the cell at SP may be popped (R93). -/
theorem exec_pop (r : Fin 8) (h : sp s ≤ 254) : exec (.pop (regByte r)) s =
    .next (advance 2 (writeReg r (cell (sp s) s).toNat (setSp (sp s + 1) s))) :=
  execIn_pop_ok r (pop_fault (c := hardware) rfl h)

/-- Settles O12: on a register what `pop` answers, settled; any other operand byte raises. -/
theorem popLoads : Obligations.PopLoads :=
  ⟨fun _ _ => rfl, fun _ => ⟨fun r h => exec_pop r h, fun _ hx => settle_regOperand_of_gt hx _,
    fun r h => execIn_pop_error r (pop_fault_gt (c := hardware) rfl h),
    fun _ r hc hm h => execIn_pop_ok r (pop_fault hc ((spMaxPop_wide hm).symm ▸ h)),
    fun _ r hc hm h => execIn_pop_error r (pop_fault_gt hc ((spMaxPop_wide hm).symm ▸ h))⟩⟩

/-- Settles O36: the POP reads the cell the PUSH wrote, and puts SP back. -/
theorem pushPopRoundTrip : Obligations.PushPopRoundTrip := by
  intro r r2 s hv hpos hle hr2
  have hexec := exec_push hv (by omega) (by omega)
  generalize ht : advance 2 _ = t at hexec
  have htsp : sp t = sp s - 1 := by subst ht; exact sp_setSp s _
  have htreg {j : Fin 8} (hj : j ≠ spIndex) : readReg j t = readReg j s := by
    subst ht; exact readReg_setSp_ne s hj _
  have hcell : cell (sp t) t = BitVec.ofNat 8 (readReg r s) := by
    rw [htsp]; subst ht; exact memGet_memSet_self _ _ _
  have husp : sp (writeReg r2 (cell (sp t) t).toNat (setSp (sp t + 1) t)) = sp s :=
    (readReg_writeReg_ne _ hr2.symm _).trans ((sp_setSp t _).trans (by omega))
  refine ⟨t, _, hexec, exec_pop r2 (by omega), ?_, husp, ?_, fun j hj => ?_⟩
  · rw [readReg_advance, readReg_writeReg_self, hcell, BitVec.toNat_ofNat, Nat.mod_eq_of_lt (by omega)]
  · subst ht; rfl
  · rcases eq_or_ne j spIndex with rfl | hsp
    · exact husp
    · rw [readReg_advance, readReg_writeReg_ne _ hj, readReg_setSp_ne _ hsp, htreg hsp]

/-! ### Frames -/

/-- An execution keeps memory, or writes the one cell a push writes. -/
theorem execIn_mem_or_pushAddr {i : Instr} (h : execIn c i s = .next t) :
    t.mem = s.mem ∨ ∃ a v, pushAddr c s = .ok a ∧ t.mem = memSet a v s.mem := by
  rcases execIn_next h with h | ⟨e, -, rfl⟩
  · exact (effect_mem h).imp_right fun ⟨a, v, ha, _, hmem, _⟩ => ⟨a, v, ha, hmem⟩
  · exact .inl rfl

theorem execIn_cell_ne {i : Instr} {a b : Nat} (h : execIn c i s = .next t) (ha : pushAddr c s = .ok a) (hb : b ≠ a) :
    cell b t = cell b s := by
  rcases execIn_mem_or_pushAddr h with hmem | ⟨a', v, ha', hmem⟩
  · exact cell_congr hmem b
  · obtain rfl : a = a' := Except.ok.inj (ha.symm.trans ha')
    rw [cell, hmem]
    exact memGet_memSet_ne hb v s.mem

/-- Where `pushAddr` gives an error, no instruction writes memory. -/
theorem execIn_mem_of_pushAddr_error {i : Instr} {e : FatalError} (h : execIn c i s = .next t)
    (ha : pushAddr c s = .error e) : t.mem = s.mem :=
  (execIn_mem_or_pushAddr h).resolve_right fun ⟨_, _, ha', _⟩ => by rw [ha] at ha'; cases ha'

/-- An instruction other than HLT keeps `run`, or raises an error. -/
theorem execIn_run_of_ne_hlt {i : Instr} (h : execIn c i s = .next t) (hi : i ≠ .hlt) :
    t.run = s.run ∨ ∃ e, t = raise e s :=
  (execIn_run h).imp_right fun hr => hr.resolve_left fun hlt => hi hlt.1

/-- Settles O45: each field's frame, the cell's by `pushAddr`, and the error's. -/
theorem frameStackWriters : Obligations.FrameStackWriters := by
  intro i x s t hi h
  rw [exec_eq_execIn] at h
  refine ⟨fun j hj => execIn_readReg h ?_, execIn_fl_of_ne_cmp h ?_, execIn_out_of_ne_prn h ?_,
    fun a ha b hb => execIn_cell_ne h ha hb, fun e ha => cell_congr (execIn_mem_of_pushAddr_error h ha),
    (execIn_run_of_ne_hlt h ?_).imp_right ?_⟩
  · rcases hi with rfl | rfl <;> exact hj
  · rintro a b rfl; simp at hi
  · rintro r rfl; simp at hi
  · rintro rfl; simp at hi
  · rintro ⟨e, rfl⟩; exact ⟨e, rfl, rfl, rfl, rfl⟩

/-- Settles O46: each field's frame, memory's since neither is PUSH or CALL, and the error's. -/
theorem frameStackReaders : Obligations.FrameStackReaders := by
  intro i s t hi h
  rw [exec_eq_execIn] at h
  have hmem : t.mem = s.mem := execIn_mem h (by rintro r rfl; simp at hi) (by rintro r rfl; simp at hi)
  refine ⟨fun j hj hne => execIn_readReg h ?_, execIn_fl_of_ne_cmp h ?_, execIn_out_of_ne_prn h ?_, cell_congr hmem,
    (execIn_run_of_ne_hlt h ?_).imp_right ?_⟩
  · rcases hi with rfl | ⟨x, rfl⟩
    · exact hj
    · exact not_or.mpr ⟨hj, fun hx => hne (congrArg Instr.pop hx)⟩
  · rintro a b rfl; simp at hi
  · rintro r rfl; simp at hi
  · rintro rfl; simp at hi
  · rintro ⟨e, rfl⟩; exact ⟨e, rfl, rfl, rfl⟩

end Sys2Proof.Machine
end

section
/-! Control transfer (spec/44_control_transfer.md R100 to R104). -/

namespace Sys2Proof.Machine

variable {c : Config} {s t : State}

/-! ### JMP, JEQ, JNE -/

/-- Settles O15: a byte that names a register passes the operand check and JMP goes to that register's value; any other
raises. -/
theorem jmpTransfers : Obligations.JmpTransfers :=
  ⟨fun _ _ => rfl, fun _ =>
    ⟨fun r => settle_regOperand_regByte r _, fun _ hx => settle_regOperand_of_gt hx _⟩⟩

theorem exec_jeq_of_equal (r : Fin 8) (h : equalBit s.fl = true) :
    exec (.jeq (regByte r)) s = .next (jump (readReg r s) s) := by
  refine (settle_regOperand_regByte r _).trans ?_
  rw [if_pos h, settle_ok]

theorem exec_jeq_of_not_equal (r : Fin 8) (h : equalBit s.fl = false) :
    exec (.jeq (regByte r)) s = .next (advance 2 s) := by
  refine (settle_regOperand_regByte r _).trans ?_
  rw [if_neg (Bool.eq_false_iff.mp h), settle_ok]

theorem exec_jne_of_not_equal (r : Fin 8) (h : equalBit s.fl = false) :
    exec (.jne (regByte r)) s = .next (jump (readReg r s) s) := by
  refine (settle_regOperand_regByte r _).trans ?_
  rw [if_neg (Bool.eq_false_iff.mp h), settle_ok]

theorem exec_jne_of_equal (r : Fin 8) (h : equalBit s.fl = true) :
    exec (.jne (regByte r)) s = .next (advance 2 s) := by
  refine (settle_regOperand_regByte r _).trans ?_
  rw [if_pos h, settle_ok]

/-- Settles O16: the law of JEQ for each value of bit E; the operand check comes first. -/
theorem jeqBranches : Obligations.JeqBranches :=
  ⟨fun _ _ => rfl, fun _ =>
    ⟨exec_jeq_of_equal, exec_jeq_of_not_equal, fun _ hx => settle_regOperand_of_gt hx _⟩⟩

/-- Settles O17: the law of JNE for each value of bit E, which takes the branch that JEQ does not. -/
theorem jneBranches : Obligations.JneBranches := by
  refine ⟨fun _ _ => rfl, fun s => ⟨exec_jne_of_not_equal, exec_jne_of_equal,
    fun _ hx => settle_regOperand_of_gt hx _, fun r => ?_⟩⟩
  cases hE : equalBit s.fl with
  | true => exact .inl ⟨exec_jeq_of_equal r hE, exec_jne_of_equal r hE⟩
  | false => exact .inr ⟨exec_jeq_of_not_equal r hE, exec_jne_of_not_equal r hE⟩

/-! ### CALL -/

/-- CALL of a register: the check of the return address, the push, then the jump (R103). -/
theorem execIn_call_regByte (c : Config) (r : Fin 8) (s : State) :
    execIn c (.call (regByte r)) s = settle s (do
      require (s.pc + 2 ≤ 255) (.outOfBounds .mem (s.pc + 2))
      let t ← push c (s.pc + 2) s
      .ok (jump (readReg r t) t)) :=
  settle_regOperand_regByte r _

theorem execIn_call_bad_return (c : Config) (r : Fin 8) (h : 255 < s.pc + 2) :
    execIn c (.call (regByte r)) s = .next (raise (.outOfBounds .mem (s.pc + 2)) s) := by
  rw [execIn_call_regByte, require_false (Nat.not_le.mpr h), bind_error, settle_error]

theorem execIn_call_ok (r : Fin 8) (hra : s.pc + 2 ≤ 255) (h : push c (s.pc + 2) s = .ok t) :
    execIn c (.call (regByte r)) s = .next (jump (readReg r t) t) := by
  rw [execIn_call_regByte, require_true hra, bind_ok, h, bind_ok, settle_ok]

theorem execIn_call_error (r : Fin 8) {e : FatalError} (hra : s.pc + 2 ≤ 255) (h : push c (s.pc + 2) s = .error e) :
    execIn c (.call (regByte r)) s = .next (raise e s) := by
  rw [execIn_call_regByte, require_true hra, bind_ok, h, bind_error, settle_error]

theorem execIn_call_congr {c' : Config} (h : c.stackPolicy = c'.stackPolicy) (x : Byte) (s : State) :
    execIn c (.call x) s = execIn c' (.call x) s := by
  simp only [execIn, callIn, push_congr h]

/-- CALL where the return address is a byte and SP - 1 an address of memory (R103). -/
theorem exec_call (r : Fin 8) (hra : s.pc + 2 ≤ 255) (hsp : sp s ≠ 0) (hle : sp s ≤ 256) :
    exec (.call (regByte r)) s = .next (jump (readReg r (setSp (sp s - 1) s))
      { setSp (sp s - 1) s with mem := memSet (sp s - 1) (BitVec.ofNat 8 (s.pc + 2)) s.mem }) :=
  execIn_call_ok r hra (push_of hra (pushAddr_fault (c := hardware) rfl hsp) (by omega))

/-- Settles O13: on a register the check of the return address, then what `push` answers; any other operand byte raises. -/
theorem callPushesReturn : Obligations.CallPushesReturn :=
  ⟨fun _ _ => rfl, fun s => ⟨fun r hra _ hle => exec_call r hra (by omega) hle,
    fun _ hx => settle_regOperand_of_gt hx _,
    fun r hgt => execIn_call_bad_return hardware r hgt,
    fun r hra h0 => execIn_call_error (c := hardware) r hra (push_fault_zero rfl hra h0),
    fun r hra hgt => execIn_call_error (c := hardware) r hra (push_fault_gt rfl hra hgt),
    fun _ x hc => execIn_call_congr (c' := hardware) hc x s⟩⟩

/-! ### RET -/

theorem execIn_ret_ok {v : Byte} (h : pop c s = .ok (v, t)) : execIn c .ret s = .next (jump v.toNat t) := by
  simp only [execIn, retIn, h, bind_ok, settle_ok]

theorem execIn_ret_error {e : FatalError} (h : pop c s = .error e) : execIn c .ret s = .next (raise e s) := by
  simp only [execIn, retIn, h, bind_error, settle_error]

/-- RET where the cell at SP may be popped (R104). -/
theorem exec_ret (h : sp s ≤ 254) :
    exec .ret s = .next (jump (cell (sp s) s).toNat (setSp (sp s + 1) s)) :=
  execIn_ret_ok (pop_fault (c := hardware) rfl h)

/-- Settles O14: what `pop` answers, settled. -/
theorem retPopsPc : Obligations.RetPopsPc :=
  ⟨fun _ => rfl, fun _ => ⟨exec_ret,
    fun h => execIn_ret_error (pop_fault_gt (c := hardware) rfl h),
    fun _ hc hm h => execIn_ret_ok (pop_fault hc ((spMaxPop_wide hm).symm ▸ h)),
    fun _ hc hm h => execIn_ret_error (pop_fault_gt hc ((spMaxPop_wide hm).symm ▸ h))⟩⟩

/-- Settles O37: the RET reads the return address from the cell the CALL wrote, and puts SP back. -/
theorem callRetRoundTrip : Obligations.CallRetRoundTrip := by
  intro r s hra hpos hle
  have hexec := exec_call r hra (by omega) (by omega)
  generalize ht : jump _ _ = t at hexec
  have htsp : sp t = sp s - 1 := by subst ht; exact sp_setSp s _
  have hcell : cell (sp t) t = BitVec.ofNat 8 (s.pc + 2) := by
    rw [htsp]; subst ht; exact memGet_memSet_self _ _ _
  refine ⟨t, _, hexec, exec_ret (by omega), ?_, fun j => ?_⟩
  · rw [jump_pc, hcell, BitVec.toNat_ofNat, Nat.mod_eq_of_lt (by omega)]
  · rw [readReg_jump]
    rcases eq_or_ne j spIndex with rfl | hsp
    · exact (sp_setSp t _).trans (show sp t + 1 = sp s by omega)
    · have htreg : readReg j t = readReg j s := by subst ht; exact readReg_setSp_ne s hsp _
      rw [readReg_setSp_ne _ hsp, htreg]

end Sys2Proof.Machine
end

section
/-! Fatal errors (spec/60_exceptions.md R110, R111, R114 to R116): raising one changes nothing but `run` and ends the run,
and what a legal state of this hardware can raise. -/

namespace Sys2Proof.Machine

variable {c : Config} {s t : State} {e : FatalError}

/-- **All a step that ends FAULTED can do**: its fetch or a fetched instruction, all of whose bytes lie in memory, raised
that error in the state before the step. -/
theorem stepIn_faulted (h : stepIn c s = .next t) (ht : t.run = .faulted e) :
    t = raise e s ∧ (fetch c s = .error e ∨ ∃ i, s.pc + i.opcode.format.ops ≤ 255 ∧ CanRaise c s i e) := by
  obtain ⟨hr, ⟨i, hf, h⟩ | ⟨e', hf, rfl⟩⟩ := stepIn_next h
  · rcases execIn_next h with h | ⟨e', he, rfl⟩
    · rcases effect_run_of_running hr h with ⟨-, rfl⟩ | ⟨-, htr⟩
      · cases ht
      · rw [htr] at ht; cases ht
    · cases ht
      obtain ⟨op, -, hfit, rfl⟩ := fetch_eq_ok hf
      exact ⟨rfl, .inr ⟨_, by rwa [assemble_opcode], he⟩⟩
  · cases ht
    exact ⟨rfl, .inl hf⟩

theorem stepIn_of_stopped (c : Config) (hr : s.run ≠ .running) : stepIn c s = .fault .stopped := by
  cases h : s.run with
  | running => exact absurd h hr
  | halted => simp [stepIn, h]
  | faulted e => simp [stepIn, h]

/-- Settles O22: the step is that one error raised in `s`, and a faulted machine is stopped. -/
theorem faultChangesOnlyRun : Obligations.FaultChangesOnlyRun :=
  fun c _ _ _ h ht => ⟨(stepIn_faulted h ht).1, stepIn_of_stopped c (by simp [ht])⟩

/-! ### The errors of this hardware -/

/-- With `pc` at most 256, a fetch can fail on an illegal byte or at address 256 (R112, R114). -/
theorem possibleError_of_fetch (hpc : s.pc ≤ 256) (h : fetch hardware s = .error e) : PossibleError e := by
  rcases fetch_eq_error h with ⟨hgt, rfl⟩ | ⟨-, hd, rfl⟩ | ⟨-, -, rfl⟩
  · exact show s.pc = 256 by omega
  · exact hd
  · exact show 256 = 256 from rfl

/-- A push of a byte where SP is a byte can fail at SP = 0 only: SP - 1 is an address of memory (R115). -/
theorem possibleError_of_push {v : Nat} (hs : RegsFit s) (hv : v ≤ 255) (h : push hardware v s = .error e) :
    PossibleError e := by
  have hsp : sp s ≤ 255 := hs spIndex
  rcases push_error h with ⟨hgt, -⟩ | ⟨-, -, rfl⟩ | ⟨a, ha, hgt, -⟩
  · omega
  · exact show 0 = 0 from rfl
  · by_cases h0 : sp s = 0
    · rw [pushAddr_fault_zero rfl h0] at ha; cases ha
    · rw [pushAddr_fault rfl h0] at ha; cases ha; omega

/-- A pop where SP is a byte can fail at SP = 255 only: `SP_MAX_POP` is 254 (R116). -/
theorem possibleError_of_pop (hs : RegsFit s) (h : pop hardware s = .error e) : PossibleError e := by
  have hsp : sp s ≤ 255 := hs spIndex
  rcases pop_error h with ⟨-, hgt, rfl⟩ | ⟨hgt, -⟩
  · have hmax : 254 < sp s := hgt
    exact show sp s = 255 by omega
  · omega

/-- On byte registers, an instruction whose bytes lie in memory raises possible errors only: CALL's return address is at most
256, so it can fail there with `(MEM, 256)` alone (R114). -/
theorem possibleError_of_canRaise {i : Instr} (hs : RegsFit s) (hfit : s.pc + i.opcode.format.ops ≤ 255)
    (h : CanRaise hardware s i e) : PossibleError e := by
  rcases h with ⟨x, -, hx, rfl⟩ | ⟨x, rfl, hgt, rfl⟩ | ⟨r, -, h⟩ | ⟨x, -, hle, h⟩ | ⟨-, h⟩
  · exact ⟨hx, Nat.le_of_lt_succ x.isLt⟩
  · have hcall : s.pc + 1 ≤ 255 := hfit
    exact show s.pc + 2 = 256 by omega
  · exact possibleError_of_push hs (hs r) h
  · exact possibleError_of_push hs hle h
  · exact possibleError_of_pop hs h

/-- Settles O52: a legal state bounds `pc` for the fetch, and the registers for the instruction. -/
theorem onlyPossibleErrors : Obligations.OnlyPossibleErrors := by
  intro s t e hs h ht
  rw [step_eq_stepIn] at h
  rcases (stepIn_faulted h ht).2 with hf | ⟨i, hfit, he⟩
  · exact possibleError_of_fetch hs.pc hf
  · exact possibleError_of_canRaise hs.regs hfit he

end Sys2Proof.Machine
end

section
/-! Load and the end of a run (spec/70_reset_and_hazards.md R131 to R133, R139): what `boot` leaves in memory, and which step
ends a run. -/

namespace Sys2Proof.Machine

variable {c : Config} {s t : State} {e : FatalError} {image : List Byte}

/-! ### The load -/

theorem loadImage_of_le (h : image.length ≤ 256) (s : State) :
    loadImage image s = some { s with mem := memSetList 0 image s.mem } := by
  unfold loadImage
  exact if_pos h

theorem loadImage_of_gt (h : 256 < image.length) (s : State) : loadImage image s = none := by
  unfold loadImage
  exact if_neg (by omega)

/-- Bytes written to zeroed memory from address 0 are its cells; the cells past them hold 0 (R131). -/
theorem memGet_memSetList_zero_nil (image : List Byte) (a : Nat) : memGet (memSetList 0 image []) a = image.getD a 0 := by
  rw [memGet_memSetList]
  by_cases ha : a < image.length
  · simp [ha]
  · rw [dif_neg (by omega), List.getD_eq_default image 0 (by omega)]
    rfl

/-- Settles O40: the load writes the image over zeroed memory, which keeps the canonical form of the empty list. -/
theorem loadFillsMemory : Obligations.LoadFillsMemory := by
  refine fun image => ⟨fun hle => ?_, fun hgt => loadImage_of_gt hgt State.reset⟩
  exact ⟨_, loadImage_of_le hle State.reset, rfl, wf_memSetList image 0 [] (by omega) wf_nil,
    memGet_memSetList_zero_nil image⟩

/-- Settles O41: the byte at address 0 is 0, no opcode, so the fetch fails. -/
theorem emptyImageFaults : Obligations.EmptyImageFaults := by
  have hd : dispatchTable hardware (cell State.reset.pc State.reset) = none := illegalOpcodeFaults.2.1
  exact ⟨loadImage_of_le (Nat.zero_le _) State.reset,
    step_of_fetch_error rfl (fetch_illegal rfl (Nat.zero_le _) hd)⟩

/-! ### The end of a run -/

theorem faultReport_of_halted (h : s.run = .halted) : faultReport s = none := by simp [faultReport, h]

theorem faultReport_of_faulted (h : s.run = .faulted e) : faultReport s = some e := by simp [faultReport, h]

theorem ended_iff : ended s = true ↔ s.run ≠ .running := by simp [ended]

/-- **All a step that ends HALTED can do**: it was HLT's, whose byte was at `pc`. -/
theorem stepIn_halted (h : stepIn c s = .next t) (ht : t.run = .halted) :
    cell s.pc s = opcodeByte c .hlt ∧ t = { s with run := .halted } := by
  obtain ⟨hr, ⟨i, hf, h⟩ | ⟨e, -, rfl⟩⟩ := stepIn_next h
  · rcases execIn_next h with h | ⟨e, -, rfl⟩
    · rcases effect_run_of_running hr h with ⟨rfl, rfl⟩ | ⟨-, htr⟩
      · obtain ⟨op, hd, -, hi⟩ := fetch_eq_ok hf
        have hop : Opcode.hlt = op := (congrArg Instr.opcode hi).trans (assemble_opcode op _ _)
        exact ⟨(opcodeByte_of_dispatch (hop ▸ hd)).symm, rfl⟩
      · rw [htr] at ht; cases ht
    · cases ht
  · cases ht

/-- Settles O28: a run that has ended is HALTED or FAULTED, and each has its inversion of the step. -/
theorem runEndsByHltOrFault : Obligations.RunEndsByHltOrFault := by
  intro s t h hend
  rw [step_eq_stepIn] at h
  cases ht : t.run with
  | running => exact absurd ht (ended_iff.mp hend)
  | halted =>
    obtain ⟨hcell, heq⟩ := stepIn_halted h ht
    exact .inl ⟨ht, hcell, heq, faultReport_of_halted ht⟩
  | faulted e => exact .inr ⟨⟨e, ht⟩, e, faultReport_of_faulted ht, (stepIn_faulted h ht).1⟩

end Sys2Proof.Machine
end

section
/-! The two register modes on byte registers (spec/92_eei_decisions.md D1; spec/93_implementation_defined.md U1): `REG_MODE`
enters a handler only by `normResult` and `spMaxPop`, and both are one in the two modes up to 255 and up to SP = 254. -/

namespace Sys2Proof.Machine

variable {c c' : Config} {s : State}

theorem normResult_of_le (c : Config) {v : Nat} (hv : v ≤ 255) : normResult c v = v := by
  rw [normResult_eq_ite]
  split
  · exact Nat.mod_eq_of_lt (by omega)
  · rfl

theorem le_spMaxPop (c : Config) : 254 ≤ spMaxPop c := by
  rw [spMaxPop_eq_ite]
  split <;> omega

/-- Two machines whose unit agrees on registers agree on every operand byte: the index checks look at no parameter. -/
theorem alu_congr {op : AluOp} {x y : Byte}
    (h : ∀ a b, x = regByte a → y = regByte b → alu c op x y s = alu c' op x y s) :
    alu c op x y s = alu c' op x y s := by
  rcases regByte_or_gt x with ⟨a, rfl⟩ | hx
  · rcases regByte_or_gt y with ⟨b, rfl⟩ | hy
    · exact h a b rfl rfl
    · rw [alu_bad_b c op a hy s, alu_bad_b c' op a hy s]
  · rw [alu_bad_a c op y hx s, alu_bad_a c' op y hx s]

theorem execIn_add_congr {x y : Byte}
    (h : ∀ a b, Instr.add x y = .add (regByte a) (regByte b) → readReg a s + readReg b s ≤ 255) :
    execIn c (.add x y) s = execIn c' (.add x y) s := by
  have halu : alu c .add x y s = alu c' .add x y s := alu_congr fun a b hx hy => by
    subst hx hy
    simp only [alu_regs, normResult_of_le _ (h a b rfl)]
  simp only [execIn, addIn, halu]

theorem execIn_mul_congr {x y : Byte}
    (h : ∀ a b, Instr.mul x y = .mul (regByte a) (regByte b) → readReg a s * readReg b s ≤ 255) :
    execIn c (.mul x y) s = execIn c' (.mul x y) s := by
  have halu : alu c .mul x y s = alu c' .mul x y s := alu_congr fun a b hx hy => by
    subst hx hy
    simp only [alu_regs, normResult_of_le _ (h a b rfl)]
  simp only [execIn, mulIn, halu]

theorem pop_congr (hc : c.stackPolicy = .fault) (hc' : c'.stackPolicy = .fault) (h : sp s ≤ 254) :
    pop c s = pop c' s := by
  rw [pop_fault hc (h.trans (le_spMaxPop c)), pop_fault hc' (h.trans (le_spMaxPop c'))]

theorem execIn_pop_congr (hc : c.stackPolicy = .fault) (hc' : c'.stackPolicy = .fault) (h : sp s ≤ 254) (x : Byte) :
    execIn c (.pop x) s = execIn c' (.pop x) s := by
  simp only [execIn, popIn, pop_congr hc hc' h]

theorem execIn_ret_congr (hc : c.stackPolicy = .fault) (hc' : c'.stackPolicy = .fault) (h : sp s ≤ 254) :
    execIn c .ret s = execIn c' .ret s := by
  simp only [execIn, retIn, pop_congr hc hc' h]

/-- Settles O53: by the instruction; only ADD, MUL, POP and RET look at `REG_MODE`, and the premises keep each where it
makes no difference. -/
theorem registerModesAgree : Obligations.RegisterModesAgree := by
  intro c i s hc hs hadd hmul hpop
  have hsp (hi : i = .ret ∨ ∃ x, i = .pop x) : sp s ≤ 254 := by
    have hle : sp s ≤ 255 := hs spIndex
    have hne := hpop hi
    omega
  cases i with
  | add x y => exact execIn_add_congr hadd
  | mul x y => exact execIn_mul_congr hmul
  | push x => exact execIn_push_congr rfl x s
  | call x => exact execIn_call_congr rfl x s
  | pop x => refine execIn_pop_congr ?_ ?_ (hsp (.inr ⟨x, rfl⟩)) x <;> exact hc
  | ret => refine execIn_ret_congr ?_ ?_ (hsp (.inl rfl)) <;> exact hc
  | hlt | ldi | prn | cmp | jmp | jeq | jne => rfl

end Sys2Proof.Machine
end
